-- ==== Sys2Proof/Word.lean ====
section
/-! DEFINITION. The two word types of the block: 8-bit bytes and 32-bit registers (00_scope.md R6, R7).
Bit 0 is the least significant bit; every value is unsigned (R8). `BitVec`'s `+` on `Byte` is the spec's
sum `mod 256` (41_cipher.md R92). -/

namespace Sys2Proof

/-- A byte: an entry of S or DMEM, a cursor, a keystream byte (R6). -/
abbrev Byte := BitVec 8

/-- A 32-bit register or bus data word (R7). -/
abbrev Word := BitVec 32

end Sys2Proof
end

