-- ==== Sys2Proof/Syntax.lean ====
section
/-! DEFINITION. The commands of the RC4E command set, version 1: one constructor per row of
spec/opcode_table.json (30_encoding.md R71). A command word carries no operand (R70, R73): operands are the
operand registers, which State holds. `encrypt` and `decrypt` are both CRYPT (R78). -/

namespace Sys2Proof

/-- The five commands (30_encoding.md R71). -/
inductive Instr where
  /-- INIT, OP 0x01: construct a cipher instance (41_cipher.md R100). -/
  | init
  /-- GEN, OP 0x02: raw keystream generation (41_cipher.md R102). -/
  | gen
  /-- CRYPT, OP 0x03: encrypt or decrypt (41_cipher.md R104). -/
  | crypt
  /-- FLIP, OP 0x04: flip one bit of a buffer (42_bitops.md R109). -/
  | flip
  /-- HAMM, OP 0x05: Hamming distance of two buffers (42_bitops.md R112). -/
  | hamm
  deriving DecidableEq, Repr

end Sys2Proof
end

