-- ==== Sys2Proof/Decode.lean ====
section
/-! DEFINITION. Decoding of a 32-bit command word, total, with every illegal word rejected by name
(30_encoding.md R70, R71, R74, R75), and the encoder, written from the same table. -/

namespace Sys2Proof

/-- Why a word is not a command (30_encoding.md R74). -/
inductive DecodeError where
  /-- A bit of RSV (31:8) is nonzero. -/
  | reservedBits (rsv : BitVec 24)
  /-- RSV is zero and OP is 0x00 or 0x06..0xFF. -/
  | unknownOpcode (op : Byte)
  deriving DecidableEq, Repr

/-- OP, bits 7:0 (R70). -/
def opField (w : Word) : Byte := w.extractLsb' 0 8

/-- RSV, bits 31:8 (R70). -/
def rsvField (w : Word) : BitVec 24 := w.extractLsb' 8 24

/-- The opcode map read from OP to mnemonic (R71). -/
def decodeOp (op : Byte) : Except DecodeError Instr :=
  if op = 0x01 then .ok .init
  else if op = 0x02 then .ok .gen
  else if op = 0x03 then .ok .crypt
  else if op = 0x04 then .ok .flip
  else if op = 0x05 then .ok .hamm
  else .error (.unknownOpcode op)

/-- Decoding of a command word (R74, R75): total, each word one of five commands or illegal. -/
def decode (w : Word) : Except DecodeError Instr :=
  if rsvField w = 0 then decodeOp (opField w) else .error (.reservedBits (rsvField w))

/-- The opcode map read from mnemonic to OP (R71). -/
def opcode (i : Instr) : Byte :=
  match i with
  | .init => 0x01
  | .gen => 0x02
  | .crypt => 0x03
  | .flip => 0x04
  | .hamm => 0x05

/-- The command word of a command: RSV = 0 above OP (R70). -/
def encode (i : Instr) : Word := (opcode i).setWidth 32

/-- What the decoder reads from a table word of `nbits` bits `w`, the bits above `nbits` zero. A command has
32 bits (R70: "The length is always 4 bytes"), so a longer word is no command. -/
def decodeTableWord (nbits w : Nat) : Option Instr :=
  if nbits ≤ 32 then
    match decode (BitVec.ofNat 32 (w % 2 ^ nbits)) with
    | .ok i => some i
    | .error _ => none
  else none

end Sys2Proof
end

