-- ==== Sys2Proof/Config.lean ====
section
/-! DEFINITION. What an implementation fixes (00_scope.md R7) and the free values of the spec's unspecified
reads (93_implementation_defined.md U1, U2, U4). The free values have no body: no proof can learn one. -/

namespace Sys2Proof

/-- The parameters that a rule of the spec depends on (00_scope.md R7). N_ENGINES, the clock frequency and
BUS_PROTOCOL are open too, and no rule depends on them (D34, D43, D44). -/
structure Params where
  /-- BASE: the block's base bus address (D2). -/
  base : Nat
  /-- DMEM_SIZE: bytes of local data memory (D3). -/
  dmemSize : Nat
  deriving DecidableEq, Repr

/-- WINDOW_SIZE, the bytes of bus address space the block decodes (00_scope.md R7, D4). -/
def Params.windowSize (p : Params) : Nat := 0x1000 + p.dmemSize

/-- DMEM_SIZE when the model is not told: 4096 (R7). DESIGN CHOICE: BASE is 0 there (log entry 1). -/
def Params.default : Params where
  base := 0
  dmemSize := 4096

/-- The byte that the n-th draw yields: a read of an unwritten DMEM byte (10_state.md R43, U1). -/
opaque Config.freeByte : Nat → Byte

/-- The word that the n-th draw yields: a read of a result location while BUSY (20_memory.md R64, U2), or any
read while `rst = 1` (70_reset_and_hazards.md R132, U4). -/
opaque Config.freeWord : Nat → Word

/-- The `err` bit that the n-th draw yields: the response to a transaction while `rst = 1`, of which the
spec says nothing (R132; log entry 9). -/
opaque Config.freeBit : Nat → Bool

end Sys2Proof
end

