-- ==== Sys2Proof/Machine/Txn.lean ====
section
/-! DEFINITION. What crosses the block's ports (20_memory.md R45, R46): host transactions, their responses and
the events of a run; and the names of the register map (10_state.md), the error codes (60_exceptions.md R117)
and the sequencer's state (10_state.md R16). -/

namespace Sys2Proof.Machine

/-- The access sizes, `size ∈ {1, 2, 4}` bytes (20_memory.md R46). -/
inductive Size where
  | b1
  | b2
  | b4
  deriving DecidableEq, Repr

/-- The number of bytes of an access (R46). -/
def Size.bytes (z : Size) : Nat :=
  match z with
  | .b1 => 1
  | .b2 => 2
  | .b4 => 4

/-- A host transaction (20_memory.md R46). `addr` is the bus address; the spec's `offset` is `addr - BASE`. -/
structure Txn where
  addr : Nat
  size : Size
  write : Bool
  /-- `wdata`, of which a write uses the low `8·size` bits. -/
  wdata : Word
  deriving DecidableEq, Repr

/-- The block's answer `(rdata, err)` (R46, R53, R148). -/
inductive Response where
  /-- A read that succeeded: `err = 0`. -/
  | readData (rdata : Word)
  /-- A write that was accepted: `err = 0`. -/
  | writeAck
  /-- A bus error: `err = 1` and `rdata = 0` (R53). -/
  | busError
  deriving DecidableEq, Repr

/-- One event of the block's single order of events (20_memory.md R47, R65). -/
inductive Event where
  /-- A host transaction, with `rst = 0`. -/
  | txn (t : Txn)
  /-- The point where the sequencer's *complete* step falls, if a command is running (40_command_cycle.md R80). -/
  | complete
  /-- A clock edge with `rst = 1` (70_reset_and_hazards.md R130), on which the host may present a transaction (R132). -/
  | rst (t : Option Txn)
  /-- `rst` driven in the middle of the host transaction `t`; "nothing is specified for that case" (R148). -/
  | rstMidTxn (t : Txn)
  deriving DecidableEq, Repr

/-- The bus-visible registers (10_state.md, register map). -/
inductive Reg where
  | id
  | ctrl
  | status
  | cmd
  | srcA
  | srcB
  | dst
  | lenA
  | lenB
  | bitidx
  | drop
  | result
  | cursors
  | dropcfg
  | dropped
  deriving DecidableEq, Repr

/-- What an offset of the window names (20_memory.md R57). -/
inductive Target where
  | reg (r : Reg)
  | reserved
  /-- `S[k]` is the byte at offset `0x100 + k` (10_state.md R37). -/
  | sbox (k : Nat)
  /-- Local address `a` is the byte at offset `0x1000 + a` (20_memory.md R54). -/
  | dmem (a : Nat)
  deriving DecidableEq, Repr

/-- The result codes of a command (60_exceptions.md R117). Codes 6..15 are never produced (U7). -/
inductive ErrCode where
  | none
  | invalidKey
  | bitIndexRange
  | illegalCmd
  | notKeyed
  | addrRange
  deriving DecidableEq, Repr

/-- SEQ, with the pending command word PEND while BUSY (10_state.md R16). PEND does not exist while IDLE (U11). -/
inductive Seq where
  | idle
  | busy (pend : Word)
  deriving DecidableEq, Repr

end Sys2Proof.Machine
end

