-- ==== Sys2Proof/Machine/State.lean ====
section
/-! DEFINITION. The block's state as plain data (10_state.md R14), the stop reasons, the named updates and the
reset state (10_state.md R42). -/

namespace Sys2Proof.Machine

/-- Local data memory: the bytes written since reset, at strictly rising local addresses. A byte that is not
listed is unwritten: it holds no value, and each read of it is a free value (10_state.md R43, U1). -/
abbrev Memory := List Host.Cell

/-- The permutation state `S[0..255]` (10_state.md R36). -/
abbrev SBox := Vector Byte 256

/-- The operand registers (10_state.md R28, R29, R30). -/
structure Operands where
  srcA : Word
  srcB : Word
  dst : Word
  lenA : Word
  lenB : Word
  bitidx : Word
  drop : Word
  deriving DecidableEq, Repr

/-- The cipher instance: "S, I, J, KEYED, DROP_DONE, DROPCFG and DROPPED alone" (10_state.md R40). -/
structure Engine where
  sbox : SBox
  i : Byte
  j : Byte
  keyed : Bool
  dropDone : Bool
  dropcfg : Word
  dropped : Word
  deriving DecidableEq, Repr

/-- The block's state (10_state.md R14) with the model's own four fields `params`, `draws`, `inbox`, `responses`. -/
structure State where
  /-- BASE and DMEM_SIZE (00_scope.md R7); no step changes them (log entry 1). -/
  params : Params
  /-- SEQ and PEND (10_state.md R16). -/
  seq : Seq
  /-- CTRL.IRQ_EN (10_state.md R18). -/
  irqEn : Bool
  /-- STATUS.DONE (10_state.md R21). -/
  done : Bool
  /-- STATUS.ERR (10_state.md R22). -/
  err : Bool
  /-- STATUS.CMD_LOST (10_state.md R25). -/
  cmdLost : Bool
  /-- STATUS.ERRCODE (10_state.md R26). -/
  errcode : ErrCode
  /-- SRC_A, SRC_B, DST, LEN_A, LEN_B, BITIDX, DROP. -/
  operands : Operands
  /-- RESULT (10_state.md R31). -/
  result : Word
  /-- The cipher instance. -/
  engine : Engine
  /-- DMEM (20_memory.md R54). -/
  dmem : Memory
  /-- How many free values have been drawn (log entry 2). -/
  draws : Nat
  /-- The events to come, oldest first (log entry 3). -/
  inbox : List Event
  /-- The responses given, newest first (log entry 4). -/
  responses : List Response
  deriving DecidableEq, Repr

/-- Why the machine stops. The block itself never stops (60_exceptions.md R116). -/
inductive Fault where
  /-- Raised by the event `rstMidTxn` alone: `rst` in the middle of a host transaction, for which the spec says
  "nothing is specified for that case" (70_reset_and_hazards.md R148, U17). Safe: the model stops, and claims
  nothing of what follows. -/
  | resetDuringTransaction
  deriving DecidableEq, Repr

/-- Why an instruction has no meaning. -/
inductive Refusal where
  /-- Raised by an arm of `exec` for an instruction without a meaning. No arm raises it: every command of the
  table has its meaning. Safe. -/
  | notModelled (mnemonic : String)
  deriving DecidableEq, Repr

/-- SEQ, PEND. -/
def State.setSeq (s : State) (q : Seq) : State := { s with seq := q }

/-- CTRL.IRQ_EN. -/
def State.setIrqEn (s : State) (b : Bool) : State := { s with irqEn := b }

/-- The flags DONE and ERR together, as issue and completion write them. -/
def State.setDoneErr (s : State) (done err : Bool) : State := { s with done := done, err := err }

/-- STATUS.CMD_LOST. -/
def State.setCmdLost (s : State) (b : Bool) : State := { s with cmdLost := b }

/-- STATUS.ERRCODE. -/
def State.setErrcode (s : State) (c : ErrCode) : State := { s with errcode := c }

/-- The operand registers. -/
def State.setOperands (s : State) (o : Operands) : State := { s with operands := o }

/-- RESULT. -/
def State.setResult (s : State) (v : Word) : State := { s with result := v }

/-- The cipher instance. -/
def State.setEngine (s : State) (e : Engine) : State := { s with engine := e }

/-- DMEM. -/
def State.setDmem (s : State) (m : Memory) : State := { s with dmem := m }

/-- The draw counter. -/
def State.setDraws (s : State) (n : Nat) : State := { s with draws := n }

/-- The events to come. -/
def State.setInbox (s : State) (es : List Event) : State := { s with inbox := es }

/-- Gives one response on the bus. -/
def State.respond (s : State) (r : Response) : State := { s with responses := r :: s.responses }

/-- The identity permutation, entry k is k (10_state.md R42). -/
def identitySBox : SBox := ⟨⟨(List.range 256).map (BitVec.ofNat 8)⟩, by simp⟩

/-- The operand registers after reset: all zero (10_state.md R42). -/
def Operands.reset : Operands where
  srcA := 0
  srcB := 0
  dst := 0
  lenA := 0
  lenB := 0
  bitidx := 0
  drop := 0

/-- The engine after reset: S the identity, everything else zero (10_state.md R42). -/
def Engine.reset : Engine where
  sbox := identitySBox
  i := 0
  j := 0
  keyed := false
  dropDone := false
  dropcfg := 0
  dropped := 0

/-- The block right after reset (10_state.md R42), with the parameters of R7's default, nothing drawn, nothing
to come and nothing answered. -/
def State.reset : State where
  params := Params.default
  seq := .idle
  irqEn := false
  done := false
  err := false
  cmdLost := false
  errcode := .none
  operands := Operands.reset
  result := 0
  engine := Engine.reset
  dmem := []
  draws := 0
  inbox := []
  responses := []

end Sys2Proof.Machine
end

