-- ==== Sys2Proof/Machine/Ops.lean ====
section
/-! DEFINITION. The named operations over memory and registers, the ascending loop of every byte loop, and the
three events that all commands share: issue, completion (which is also how a failed command ends; the block has
no exception, 60_exceptions.md R116), and reset. -/

namespace Sys2Proof.Machine

/-- `for k in 0 .. n-1` with k ascending, each iteration complete before the next (00_scope.md R10):
iteration n runs after iterations 0 .. n-1. -/
def loop {σ : Type} (body : Nat → σ → σ) : Nat → σ → σ
  | 0, x => x
  | n + 1, x => body n (loop body n x)

/-- The written byte at a local address; none where the byte is unwritten (10_state.md R43). -/
def Memory.lookup (a : Nat) : Memory → Option Byte
  | [] => none
  | (b, v) :: m => if a = b then some v else Memory.lookup a m

/-- Writes one byte, keeping the addresses strictly rising. -/
def Memory.store (a : Nat) (v : Byte) : Memory → Memory
  | [] => [(a, v)]
  | (b, w) :: m =>
    if a < b then (a, v) :: (b, w) :: m
    else if a = b then (a, v) :: m
    else (b, w) :: Memory.store a v m

/-- The canonical form: addresses strictly rising. An unlisted byte is unwritten, which no byte value is, so
no entry can equal it. -/
abbrev Memory.wf (m : Memory) : Prop := m.Pairwise fun c d => c.1 < d.1

/-- `MemRead(a, 1)` (20_memory.md R55). A read of an unwritten byte draws a free value (10_state.md R43, U1). -/
def memRead (a : Nat) (s : State) : Byte × State :=
  match s.dmem.lookup a with
  | some b => (b, s)
  | none => (Config.freeByte s.draws, s.setDraws (s.draws + 1))

/-- The bytes `DMEM[a] .. DMEM[a+n-1]`, read in ascending order (00_scope.md R11, R10). -/
def memReadBytes : Nat → Nat → State → List Byte × State
  | 0, _, s => ([], s)
  | n + 1, a, s =>
    let first := memRead a s
    let rest := memReadBytes n (a + 1) first.2
    (first.1 :: rest.1, rest.2)

/-- `MemWrite(a, 1, v)` (20_memory.md R55). -/
def memWrite (a : Nat) (v : Byte) (s : State) : State := s.setDmem (s.dmem.store a v)

/-- Byte k of a word, bits `8k+7 : 8k` (20_memory.md R55). -/
def byteOf (w : Word) (k : Nat) : Byte := w.extractLsb' (8 * k) 8

/-- `MemWrite(a, n, w)`: for k ascending, `DMEM[a+k] <- w[8k+7 : 8k]` (20_memory.md R55). -/
def memWriteBytes (n a : Nat) (w : Word) (s : State) : State :=
  loop (fun k t => memWrite (a + k) (byteOf w k) t) n s

/-- Little-endian packing: the first byte of the list is bits 7:0 (20_memory.md R49). -/
def packLE : List Byte → Word
  | [] => 0
  | b :: bs => b.setWidth 32 ||| (packLE bs <<< 8)

/-- `S[k]` (00_scope.md R9). -/
def sboxGet (p : SBox) (k : Byte) : Byte := p[k.toNat]'k.isLt

/-- `swap(S[a], S[b])`; when `a = b` it changes nothing (00_scope.md R9). -/
def sboxSwap (p : SBox) (a b : Byte) : SBox := p.swap a.toNat b.toNat a.isLt b.isLt

/-- SEQ = BUSY, which STATUS.BUSY reads (10_state.md R20). -/
def State.busy (s : State) : Bool :=
  match s.seq with
  | .idle => false
  | .busy _ => true

/-- Issue of the command word w (40_command_cycle.md R82): PEND, SEQ, DONE and ERR; nothing else. -/
def State.issue (s : State) (w : Word) : State := (s.setSeq (.busy w)).setDoneErr false false

/-- The end of a command with result `code` (40_command_cycle.md R87): SEQ, DONE, ERR and ERRCODE. A failed
command ends by this alone (R88). -/
def State.complete (s : State) (code : ErrCode) : State :=
  ((s.setSeq .idle).setDoneErr true (code != .none)).setErrcode code

/-- What a clock edge with `rst = 1` leaves (70_reset_and_hazards.md R130, R131): the reset state of
10_state.md R42. The model's own fields go on: the parameters, the draws made, the events to come, the
responses given. -/
def State.applyReset (s : State) : State :=
  { State.reset with params := s.params, draws := s.draws, inbox := s.inbox, responses := s.responses }

end Sys2Proof.Machine
end

