-- ==== Sys2Proof/Machine/Flags.lean ====
section
/-! DEFINITION. The words that the status and control registers read, the write-one-to-clear rule and the
interrupt output (10_state.md R18 to R26, R32; 60_exceptions.md R117, R119). The block has no condition codes
(10_state.md R41). -/

namespace Sys2Proof.Machine

/-- The code of an error in ERRCODE (60_exceptions.md R117). -/
def ErrCode.bits (c : ErrCode) : BitVec 4 :=
  match c with
  | .none => 0
  | .invalidKey => 1
  | .bitIndexRange => 2
  | .illegalCmd => 3
  | .notKeyed => 4
  | .addrRange => 5

/-- STATUS as it reads (10_state.md R19): ERRCODE in 11:8, CMD_LOST 5, DROP_DONE 4, KEYED 3, ERR 2, DONE 1,
BUSY 0; every other bit 0. -/
def statusWord (s : State) : Word :=
  s.errcode.bits.setWidth 32 <<< 8
    ||| (BitVec.ofBool s.cmdLost).setWidth 32 <<< 5
    ||| (BitVec.ofBool s.engine.dropDone).setWidth 32 <<< 4
    ||| (BitVec.ofBool s.engine.keyed).setWidth 32 <<< 3
    ||| (BitVec.ofBool s.err).setWidth 32 <<< 2
    ||| (BitVec.ofBool s.done).setWidth 32 <<< 1
    ||| (BitVec.ofBool s.busy).setWidth 32

/-- CTRL as it reads: IRQ_EN in bit 0, the rest 0 (10_state.md R18). -/
def ctrlWord (s : State) : Word := (BitVec.ofBool s.irqEn).setWidth 32

/-- CURSORS as it reads: `zext_32(J ++ I)`, J in 15:8 and I in 7:0 (10_state.md R32). -/
def cursorsWord (s : State) : Word := s.engine.j.setWidth 32 <<< 8 ||| s.engine.i.setWidth 32

/-- A host write of v to STATUS (10_state.md R19): a 1 in bit 1, 2 or 5 clears DONE, ERR or CMD_LOST; every
other bit is ignored. -/
def writeStatus (v : Word) (s : State) : State :=
  (s.setDoneErr (s.done && !v.getLsbD 1) (s.err && !v.getLsbD 2)).setCmdLost (s.cmdLost && !v.getLsbD 5)

/-- A host write of v to CTRL: bit 0 is stored, bits 31:1 are discarded (10_state.md R18). -/
def writeCtrl (v : Word) (s : State) : State := s.setIrqEn (v.getLsbD 0)

/-- The level interrupt output: `irq = CTRL.IRQ_EN AND STATUS.DONE` (60_exceptions.md R119). -/
def State.irq (s : State) : Bool := s.irqEn && s.done

end Sys2Proof.Machine
end

