-- ==== Sys2Proof/Machine/Bus.lean ====
section
/-! DEFINITION. The bus slave port (20_memory.md): window decoding, bus errors, reads and writes of every
location, while IDLE and while BUSY. -/

namespace Sys2Proof.Machine

/-- The offset of a bus address, if the block decodes it (20_memory.md R46). -/
def windowOffset (p : Params) (addr : Nat) : Option Nat :=
  if p.base ≤ addr ∧ addr < p.base + p.windowSize then some (addr - p.base) else none

/-- An access the block answers with a bus error: misaligned (20_memory.md R51), or not 4 bytes in
0x000..0x0FF (R52). -/
def isBusError (off : Nat) (z : Size) : Bool :=
  off % z.bytes != 0 || (off < 0x100 && z != .b4)

/-- The register at an aligned offset below 0x03C (10_state.md, register map). -/
def regAt (off : Nat) : Reg :=
  match off with
  | 0x000 => .id
  | 0x004 => .ctrl
  | 0x008 => .status
  | 0x00C => .cmd
  | 0x010 => .srcA
  | 0x014 => .srcB
  | 0x018 => .dst
  | 0x01C => .lenA
  | 0x020 => .lenB
  | 0x024 => .bitidx
  | 0x028 => .drop
  | 0x02C => .result
  | 0x030 => .cursors
  | 0x034 => .dropcfg
  | _ => .dropped

/-- What an offset names (20_memory.md R57, 10_state.md register map). A legal access below 0x03C is at a
multiple of 4 (R51, R52), so it is at a register's own offset. -/
def targetOf (off : Nat) : Target :=
  if off < 0x03C then .reg (regAt off)
  else if off < 0x100 then .reserved
  else if off < 0x200 then .sbox (off - 0x100)
  else if off < 0x1000 then .reserved
  else .dmem (off - 0x1000)

/-- The locations whose reads are unspecified while BUSY (20_memory.md R64). -/
def Target.unspecifiedWhileBusy (t : Target) : Bool :=
  match t with
  | .reg .result => true
  | .reg .cursors => true
  | .reg .dropcfg => true
  | .reg .dropped => true
  | .sbox _ => true
  | .dmem _ => true
  | _ => false

/-- The value a register reads (10_state.md R17 to R34). CMD reads 0 (R27). -/
def readReg (r : Reg) (s : State) : Word :=
  match r with
  | .id => 0x52433401
  | .ctrl => ctrlWord s
  | .status => statusWord s
  | .cmd => 0
  | .srcA => s.operands.srcA
  | .srcB => s.operands.srcB
  | .dst => s.operands.dst
  | .lenA => s.operands.lenA
  | .lenB => s.operands.lenB
  | .bitidx => s.operands.bitidx
  | .drop => s.operands.drop
  | .result => s.result
  | .cursors => cursorsWord s
  | .dropcfg => s.engine.dropcfg
  | .dropped => s.engine.dropped

/-- The SBOX window's bytes `S[k] .. S[k+n-1]` (10_state.md R37, 20_memory.md R56). -/
def sboxBytes (p : SBox) (k n : Nat) : List Byte :=
  (List.range n).map fun m => sboxGet p (BitVec.ofNat 8 (k + m))

/-- The low `8·size` bits of a word, the rest 0 (20_memory.md R46). -/
def lowBytes (z : Size) (w : Word) : Word := BitVec.ofNat 32 (w.toNat % 2 ^ (8 * z.bytes))

/-- The data of a legal read (20_memory.md R56, R64), with the state after: the block's own state is unchanged
(R58), and a free value advances the draw counter. -/
def busRead (off : Nat) (z : Size) (s : State) : Word × State :=
  if s.busy && (targetOf off).unspecifiedWhileBusy then
    (lowBytes z (Config.freeWord s.draws), s.setDraws (s.draws + 1))
  else
    match targetOf off with
    | .reg r => (readReg r s, s)
    | .reserved => (0, s)
    | .sbox k => (packLE (sboxBytes s.engine.sbox k z.bytes), s)
    | .dmem a =>
      let r := memReadBytes z.bytes a s
      (packLE r.1, r.2)

/-- A host write of w to CMD: an issue while IDLE (10_state.md R27, 40_command_cycle.md R82); while BUSY it
only sets CMD_LOST (20_memory.md R62). -/
def writeCmd (w : Word) (s : State) : State :=
  if s.busy then s.setCmdLost true else s.issue w

/-- The operand registers after a host write of w to register r (10_state.md R28 to R30): all 32 bits stored. -/
def writeOperand (r : Reg) (w : Word) (o : Operands) : Operands :=
  match r with
  | .srcA => { o with srcA := w }
  | .srcB => { o with srcB := w }
  | .dst => { o with dst := w }
  | .lenA => { o with lenA := w }
  | .lenB => { o with lenB := w }
  | .bitidx => { o with bitidx := w }
  | .drop => { o with drop := w }
  | _ => o

/-- A host write of w to a register: CTRL, STATUS and CMD act also while BUSY (20_memory.md R62, R63);
operand registers are written only while IDLE (R63); read-only registers ignore writes (10_state.md R17, R31
to R34). -/
def writeReg (r : Reg) (w : Word) (s : State) : State :=
  match r with
  | .ctrl => writeCtrl w s
  | .status => writeStatus w s
  | .cmd => writeCmd w s
  | _ => if s.busy then s else s.setOperands (writeOperand r w s.operands)

/-- The effect of a legal write (20_memory.md R56, R57, R63). Writes to SBOX and to reserved offsets are
ignored (10_state.md R35, R37). -/
def busWrite (off : Nat) (z : Size) (w : Word) (s : State) : State :=
  match targetOf off with
  | .reg r => writeReg r w s
  | .reserved => s
  | .sbox _ => s
  | .dmem a => if s.busy then s else memWriteBytes z.bytes a w s

/-- A host transaction (20_memory.md R46, R47). An address outside the window is not decoded: the block does
nothing and answers nothing. A bus error changes no state (R53) and precedes every other effect
(60_exceptions.md R121(b)). -/
def access (t : Txn) (s : State) : State :=
  match windowOffset s.params t.addr with
  | none => s
  | some off =>
    if isBusError off t.size then s.respond .busError
    else if t.write then (busWrite off t.size t.wdata s).respond .writeAck
    else
      let r := busRead off t.size s
      r.2.respond (.readData r.1)

/-- A transaction presented while `rst = 1` (70_reset_and_hazards.md R132): it is not performed. Its answer is
free: a read returns an unspecified value, and whether `err` is set is not said (log entry 9). -/
def accessInReset (t : Txn) (s : State) : State :=
  match windowOffset s.params t.addr with
  | none => s
  | some _ =>
    let answer : Response :=
      if Config.freeBit s.draws then .busError
      else if t.write then .writeAck
      else .readData (lowBytes t.size (Config.freeWord (s.draws + 1)))
    (s.setDraws (s.draws + 2)).respond answer

/-- A clock edge with `rst = 1` (70_reset_and_hazards.md R130), with the transaction presented on it, if any. -/
def resetEdge (t : Option Txn) (s : State) : State :=
  match t with
  | none => s.applyReset
  | some t => accessInReset t s.applyReset

end Sys2Proof.Machine
end

