-- ==== Sys2Proof/Machine/Operands.lean ====
section
/-! DEFINITION. The operands of a command and the checks made before any effect: which regions a command
names (30_encoding.md R72, 40_command_cycle.md R86), when a region is in range, and the check order (R89).
Every operand is a whole 32-bit register read as an unsigned number (30_encoding.md R73); sums and products
are exact (00_scope.md R8). -/

namespace Sys2Proof.Machine

/-- A region `(base, len)` is in range when `base + len <= DMEM_SIZE`, computed exactly, also when `len = 0`
(40_command_cycle.md R86). -/
def inRange (dmemSize : Nat) (region : Word × Word) : Bool :=
  region.1.toNat + region.2.toNat ≤ dmemSize

/-- The regions each command checks (40_command_cycle.md R86). -/
def regions (i : Instr) (o : Operands) : List (Word × Word) :=
  match i with
  | .init => [(o.srcA, o.lenA)]
  | .gen => [(o.dst, o.lenA)]
  | .crypt => [(o.srcA, o.lenA), (o.dst, o.lenA)]
  | .flip => [(o.srcA, o.lenA), (o.dst, o.lenA)]
  | .hamm => [(o.srcA, o.lenA), (o.srcB, o.lenB)]

/-- GEN and CRYPT require a cipher instance (40_command_cycle.md R85). -/
def needsKey (i : Instr) : Bool :=
  match i with
  | .init => false
  | .gen => true
  | .crypt => true
  | .flip => false
  | .hamm => false

/-- INIT's key length is legal: `1 <= LEN_A <= 256` (41_cipher.md R100, 90_conflicts.md C1). -/
def keyLengthOk (o : Operands) : Bool := 1 ≤ o.lenA.toNat && o.lenA.toNat ≤ 256

/-- FLIP's bit index is legal: `BITIDX < 8 * LEN_A`, exact (42_bitops.md R109). -/
def bitIndexOk (o : Operands) : Bool := o.bitidx.toNat < 8 * o.lenA.toNat

/-- `check(PEND)` for a legal command word: the first code that applies (40_command_cycle.md R89). The
ILLEGAL_CMD test comes before it, in the sequencer's decoding (R84). -/
def check (i : Instr) (s : State) : ErrCode :=
  if needsKey i && !s.engine.keyed then .notKeyed
  else if i == .init && !keyLengthOk s.operands then .invalidKey
  else if !(regions i s.operands).all (inRange s.params.dmemSize) then .addrRange
  else if i == .flip && !bitIndexOk s.operands then .bitIndexRange
  else .none

/-- Completion of a legal command (40_command_cycle.md R87): check, the body if nothing failed, then SEQ,
DONE, ERR and ERRCODE. A failed command has no body effect (R88). -/
def runCommand (i : Instr) (body : State → State) (s : State) : State :=
  let code := check i s
  (if code = .none then body s else s).complete code

end Sys2Proof.Machine
end

