-- ==== Sys2Proof/Machine/BitOps.lean ====
section
/-! DEFINITION. The bit-operation unit (42_bitops.md): the meanings of FLIP and HAMM. -/

namespace Sys2Proof.Machine

/-- The number of 1 bits of a byte (00_scope.md R8). -/
def popcount (b : Byte) : Nat := (List.range 8).countP fun n => b.getLsbD n

/-- `1 << (b mod 8)` as a byte (42_bitops.md R109). -/
def bitMask (b : Nat) : Byte := 1 <<< (b % 8)

/-- What FLIP does to byte k of its input for bit index b (42_bitops.md R109). -/
def flipByteValue (b k : Nat) (v : Byte) : Byte := if k = b / 8 then v ^^^ bitMask b else v

/-- One iteration of FLIP: read byte k, then write byte k (42_bitops.md R109). -/
def flipByte (src dst b k : Nat) (s : State) : State :=
  let v := memRead (src + k) s
  memWrite (dst + k) (flipByteValue b k v.1) v.2

/-- The body of FLIP (42_bitops.md R109, R110): LEN_A bytes in ascending order. -/
def flipBody (s : State) : State :=
  loop (flipByte s.operands.srcA.toNat s.operands.dst.toNat s.operands.bitidx.toNat)
    s.operands.lenA.toNat s

/-- One iteration of HAMM: the distance so far and the state (42_bitops.md R112). -/
def hammByte (srcA srcB k : Nat) (x : Nat × State) : Nat × State :=
  let a := memRead (srcA + k) x.2
  let b := memRead (srcB + k) a.2
  (x.1 + popcount (a.1 ^^^ b.1), b.2)

/-- The body of HAMM (42_bitops.md R112): the common prefix of the two buffers; RESULT gets the sum. -/
def hammBody (s : State) : State :=
  let n := min s.operands.lenA.toNat s.operands.lenB.toNat
  let d := loop (hammByte s.operands.srcA.toNat s.operands.srcB.toNat) n (0, s)
  d.2.setResult (BitVec.ofNat 32 d.1)

/-- FLIP: flip one bit of a buffer (42_bitops.md R109, R110). -/
def execFlip (s : State) : Host.Outcome State Fault Refusal := .next (runCommand .flip flipBody s)

/-- HAMM: Hamming distance of two buffers (42_bitops.md R112, R113). -/
def execHamm (s : State) : Host.Outcome State Fault Refusal := .next (runCommand .hamm hammBody s)

end Sys2Proof.Machine
end

