-- ==== Sys2Proof/Machine/Cipher.lean ====
section
/-! DEFINITION. The cipher unit (41_cipher.md): the primitives `ksa`, `prga_step` and `do_drop`, and the
meanings of INIT, GEN and CRYPT. Sums of bytes are mod 256 (R92). -/

namespace Sys2Proof.Machine

/-- One iteration of the key-scheduling loop (41_cipher.md R93): the permutation and the accumulator. The key
is nonempty wherever the spec runs it, so `i mod L` is always an index of the key. -/
def ksaRound (key : List Byte) (i : Nat) (x : SBox × Byte) : SBox × Byte :=
  let a := x.2 + sboxGet x.1 (BitVec.ofNat 8 i) + key.getD (i % key.length) 0
  (sboxSwap x.1 (BitVec.ofNat 8 i) a, a)

/-- `ksa(key)` (41_cipher.md R93): 256 rounds from the identity with accumulator 0, which does not survive.
Irreducible, so that no unifier runs the 256 rounds; `unfold ksa` opens it. -/
@[irreducible] def ksa (key : List Byte) : SBox := (loop (ksaRound key) 256 (identitySBox, 0)).1

/-- `prga_step()` (41_cipher.md R94): the keystream byte and the state after. The output index uses the
entries after the swap. -/
def prgaStep (e : Engine) : Byte × Engine :=
  let i := e.i + 1
  let j := e.j + sboxGet e.sbox i
  let p := sboxSwap e.sbox i j
  (sboxGet p (sboxGet p i + sboxGet p j), { e with sbox := p, i := i, j := j })

/-- One discarded step of the drop: `discard prga_step()` and `DROPPED <- DROPPED + 1` (41_cipher.md R96). -/
def dropStep (e : Engine) : Engine :=
  let after := (prgaStep e).2
  { after with dropped := after.dropped + 1 }

/-- `do_drop()` (41_cipher.md R96): lazily, once per instance, DROPCFG discarded steps. -/
def doDrop (e : Engine) : Engine :=
  if e.dropDone then e
  else { loop (fun _ => dropStep) e.dropcfg.toNat e with dropDone := true }

/-- The engine INIT leaves (41_cipher.md R100, R99), from the key bytes and the DROP register. -/
def newEngine (key : List Byte) (drop : Word) : Engine where
  sbox := ksa key
  i := 0
  j := 0
  keyed := true
  dropDone := false
  dropcfg := drop
  dropped := 0

/-- The body of INIT (41_cipher.md R100): a snapshot of the key bytes, then a new instance. -/
def initBody (s : State) : State :=
  let key := memReadBytes s.operands.lenA.toNat s.operands.srcA.toNat s
  key.2.setEngine (newEngine key.1 s.operands.drop)

/-- One iteration of GEN: `MemWrite(x[DST] + k, 1, prga_step())` (41_cipher.md R102). -/
def genByte (dst k : Nat) (s : State) : State :=
  let ks := prgaStep s.engine
  memWrite (dst + k) ks.1 (s.setEngine ks.2)

/-- The body of GEN (41_cipher.md R102): the pending drop, then LEN_A keystream bytes. -/
def genBody (s : State) : State :=
  loop (genByte s.operands.dst.toNat) s.operands.lenA.toNat (s.setEngine (doDrop s.engine))

/-- One iteration of CRYPT: a keystream step, the read of input byte k, the write of output byte k
(41_cipher.md R104). -/
def cryptByte (src dst k : Nat) (s : State) : State :=
  let ks := prgaStep s.engine
  let b := memRead (src + k) (s.setEngine ks.2)
  memWrite (dst + k) (b.1 ^^^ ks.1) b.2

/-- The body of CRYPT (41_cipher.md R104): the pending drop, then LEN_A bytes in ascending order. -/
def cryptBody (s : State) : State :=
  loop (cryptByte s.operands.srcA.toNat s.operands.dst.toNat) s.operands.lenA.toNat
    (s.setEngine (doDrop s.engine))

/-- INIT: construct a cipher instance (41_cipher.md R100). -/
def execInit (s : State) : Host.Outcome State Fault Refusal := .next (runCommand .init initBody s)

/-- GEN: raw keystream generation (41_cipher.md R102). -/
def execGen (s : State) : Host.Outcome State Fault Refusal := .next (runCommand .gen genBody s)

/-- CRYPT: encrypt or decrypt (41_cipher.md R104, R105). -/
def execCrypt (s : State) : Host.Outcome State Fault Refusal := .next (runCommand .crypt cryptBody s)

end Sys2Proof.Machine
end

