-- ==== Sys2Proof/Machine/Dispatch.lean ====
section
/-! DEFINITION. One arm per command of the table: its completion step (40_command_cycle.md R87). -/

namespace Sys2Proof.Machine

def exec (i : Instr) (s : State) : Host.Outcome State Fault Refusal :=
  match i with
  | .init => Sys2Proof.Machine.execInit s
  | .gen => Sys2Proof.Machine.execGen s
  | .crypt => Sys2Proof.Machine.execCrypt s
  | .flip => Sys2Proof.Machine.execFlip s
  | .hamm => Sys2Proof.Machine.execHamm s

end Sys2Proof.Machine
end

