-- ==== Sys2Proof/Machine/Sequencer.lean ====
section
/-! DEFINITION. The sequencer's *complete* transition (40_command_cycle.md R80, R87) and what each event of
the run does (20_memory.md R47, R65). -/

namespace Sys2Proof.Machine

/-- The sequencer's move: while BUSY, the completion of PEND, a word that decodes to no command failing with
ILLEGAL_CMD (40_command_cycle.md R84, R87, R89); while IDLE nothing happens, since the block starts no command
by itself (70_reset_and_hazards.md R148). -/
def sequencerMove (s : State) : Host.Outcome State Fault Refusal :=
  match s.seq with
  | .idle => .next s
  | .busy w =>
    match decode w with
    | .ok i => exec i s
    | .error _ => .next (s.complete .illegalCmd)

/-- One event of the run. Reset takes precedence over everything (60_exceptions.md R121(d)). -/
def handleEvent (e : Event) (s : State) : Host.Outcome State Fault Refusal :=
  match e with
  | .txn t => .next (access t s)
  | .complete => sequencerMove s
  | .rst t => .next (resetEdge t s)
  | .rstMidTxn _ => .fault .resetDuringTransaction

/-- The state in which the very next step completes the command word `w`, as if the host had just issued it
(40_command_cycle.md R82): PEND, SEQ, DONE and ERR as an issue leaves them, and a completion point before the
events to come. -/
def presentCommand (w : Word) (s : State) : State := (s.issue w).setInbox (.complete :: s.inbox)

end Sys2Proof.Machine
end

