-- ==== Sys2Proof/Machine/Step.lean ====
section
/-! DEFINITION. One step of the block: the next event of the inbox, or the sequencer's move when there is none
(weak fairness of *complete*, 40_command_cycle.md R81). -/

namespace Sys2Proof.Machine

/-- One step. -/
def step (s : State) : Host.Outcome State Fault Refusal :=
  match s.inbox with
  | [] => sequencerMove s
  | e :: rest => handleEvent e (s.setInbox rest)

/-- `s` with the table word `w` of `nbits` bits issued, so that the next step completes it. The block fetches
no instruction (10_state.md R16): a command comes to run by being written to CMD (log entry 6). -/
def State.withFetchWord (s : State) (nbits w : Nat) : State :=
  presentCommand (BitVec.ofNat 32 (w % 2 ^ nbits)) s

end Sys2Proof.Machine
end

