-- ==== Sys2Proof/Machine/HostProgram.lean ====
section
/-! DEFINITION. The host's assembly language (30_encoding.md R76 to R79): lines, pseudo-instructions, and the
events they stand for. It is notation for a list of transactions; the block never sees it. -/

namespace Sys2Proof.Machine

/-- A line of a host program (30_encoding.md R76). Offsets are from BASE. -/
inductive HostLine where
  | sw (off : Nat) (v : Word)
  | sh (off : Nat) (v : Word)
  | sb (off : Nat) (v : Word)
  | lw (off : Nat)
  | lh (off : Nat)
  | lb (off : Nat)
  /-- `poll`, of which `busyReads` STATUS reads return BUSY = 1 before the command completes. -/
  | poll (busyReads : Nat)
  deriving DecidableEq, Repr

/-- The offset a register name stands for (30_encoding.md R76). -/
def offsetOf (r : Reg) : Nat :=
  match r with
  | .id => 0x000
  | .ctrl => 0x004
  | .status => 0x008
  | .cmd => 0x00C
  | .srcA => 0x010
  | .srcB => 0x014
  | .dst => 0x018
  | .lenA => 0x01C
  | .lenB => 0x020
  | .bitidx => 0x024
  | .drop => 0x028
  | .result => 0x02C
  | .cursors => 0x030
  | .dropcfg => 0x034
  | .dropped => 0x038

/-- A write transaction at an offset (30_encoding.md R76, R79). -/
def writeAt (p : Params) (z : Size) (off : Nat) (v : Word) : Txn :=
  { addr := p.base + off, size := z, write := true, wdata := v }

/-- A read transaction at an offset (30_encoding.md R76, R79). -/
def readAt (p : Params) (z : Size) (off : Nat) : Txn :=
  { addr := p.base + off, size := z, write := false, wdata := 0 }

/-- The events of a line (30_encoding.md R76): one transaction, or for `poll` the STATUS reads with the
completion before the last of them. -/
def HostLine.events (p : Params) (l : HostLine) : List Event :=
  match l with
  | .sw off v => [.txn (writeAt p .b4 off v)]
  | .sh off v => [.txn (writeAt p .b2 off v)]
  | .sb off v => [.txn (writeAt p .b1 off v)]
  | .lw off => [.txn (readAt p .b4 off)]
  | .lh off => [.txn (readAt p .b2 off)]
  | .lb off => [.txn (readAt p .b1 off)]
  | .poll n =>
    List.replicate n (.txn (readAt p .b4 (offsetOf .status)))
      ++ [.complete, .txn (readAt p .b4 (offsetOf .status))]

/-- `sw` to a register by name. -/
def swReg (r : Reg) (v : Word) : HostLine := .sw (offsetOf r) v

/-- `sw CMD, <mnemonic>`: a mnemonic stands for its command word (30_encoding.md R76). -/
def swCmd (i : Instr) : HostLine := swReg .cmd (encode i)

/-- `init ka, L, D` (30_encoding.md R77); n is the poll's busy reads. -/
def initLines (ka len drop : Word) (n : Nat) : List HostLine :=
  [swReg .srcA ka, swReg .lenA len, swReg .drop drop, swCmd .init, .poll n]

/-- `gen dst, n` (30_encoding.md R77). -/
def genLines (dst len : Word) (n : Nat) : List HostLine :=
  [swReg .dst dst, swReg .lenA len, swCmd .gen, .poll n]

/-- `crypt dst, src, n`, `encrypt` and `decrypt` (30_encoding.md R77, R78). -/
def cryptLines (dst src len : Word) (n : Nat) : List HostLine :=
  [swReg .srcA src, swReg .dst dst, swReg .lenA len, swCmd .crypt, .poll n]

/-- `flip dst, src, L, b` (30_encoding.md R77). -/
def flipLines (dst src len bit : Word) (n : Nat) : List HostLine :=
  [swReg .srcA src, swReg .dst dst, swReg .lenA len, swReg .bitidx bit, swCmd .flip, .poll n]

/-- `hamm a, la, b, lb` (30_encoding.md R77). -/
def hammLines (a la b lb : Word) (n : Nat) : List HostLine :=
  [swReg .srcA a, swReg .lenA la, swReg .srcB b, swReg .lenB lb, swCmd .hamm, .poll n]

/-- The events of a host program. -/
def programEvents (p : Params) (ls : List HostLine) : List Event := ls.flatMap (HostLine.events p)

end Sys2Proof.Machine
end

