-- ==== Sys2Proof/WellFormed.lean ====
section
/-! DEFINITION. Well-formedness of what comes from outside: a command, a command word, the parameters. -/

namespace Sys2Proof

/-- A command carries no field (30_encoding.md R70, R73), so there is nothing that could be ill formed: every
constructor of `Instr` is a command of the table. -/
def Instr.wf (i : Instr) : Bool :=
  match i with
  | .init => true
  | .gen => true
  | .crypt => true
  | .flip => true
  | .hamm => true

/-- RSV, bits 31:8 of a command word, is 0 (R70). -/
def rsvIsZero (w : Word) : Bool := w.toNat / 256 == 0

/-- OP, bits 7:0 of a command word, is one of 0x01 .. 0x05 (R71). -/
def opIsListed (w : Word) : Bool := 1 ≤ w.toNat % 256 && w.toNat % 256 ≤ 5

/-- "A command word is legal exactly when RSV = 0 and OP ∈ {0x01, 0x02, 0x03, 0x04, 0x05}"
(30_encoding.md R74). -/
def legalWord (w : Word) : Bool := rsvIsZero w && opIsListed w

/-- DMEM_SIZE is a power of two (00_scope.md R7). -/
def Params.dmemIsPowerOfTwo (p : Params) : Bool := p.dmemSize == 2 ^ p.dmemSize.log2

/-- 256 ≤ DMEM_SIZE ≤ 2^20 (R7). -/
def Params.dmemInRange (p : Params) : Bool := 256 ≤ p.dmemSize && p.dmemSize ≤ 2 ^ 20

/-- BASE is a multiple of the smallest power of two that is at least WINDOW_SIZE (R7). -/
def Params.baseAligned (p : Params) : Bool := p.base % 2 ^ ((p.windowSize - 1).log2 + 1) == 0

/-- The parameters are ones the spec allows (R7). -/
def Params.wf (p : Params) : Bool := p.dmemIsPowerOfTwo && p.dmemInRange && p.baseAligned

end Sys2Proof
end

