-- ==== Sys2Proof/Safety.lean ====
section
/-! DEFINITION. The terms that claims about the block use: the invariant of every state, the end of a run, the
final state and the launch premises (70_reset_and_hazards.md R149, R150), byte sequences in DMEM (00_scope.md
R11), the keystream (41_cipher.md R97), the Hamming distance bit by bit, and RC4 over exact integers, to compare
the cipher unit with. -/

namespace Sys2Proof.Machine

/-- The byte sequence `bs` stands, written, at local address a (00_scope.md R11). -/
def Memory.holds (m : Memory) (a : Nat) (bs : List Byte) : Prop :=
  ∀ k, k < bs.length → m.lookup (a + k) = bs[k]?

/-- Every written byte lies below n. -/
abbrev Memory.below (m : Memory) (n : Nat) : Prop := ∀ c ∈ m, c.1 < n

/-- A region `(base, len)` lies in DMEM (40_command_cycle.md R86), exact sum. -/
abbrev State.fits (s : State) (base len : Word) : Prop := base.toNat + len.toNat ≤ s.params.dmemSize

/-- The two regions of n bytes share no byte. -/
abbrev disjoint (a b n : Nat) : Prop := a + n ≤ b ∨ b + n ≤ a

/-- The instance invariant: S is a bijection on {0, ..., 255} (10_state.md R39); DROPPED is DROPCFG once the
drop is done and 0 before (R24, R34, 41_cipher.md R96); without an instance the engine is as reset left it
(10_state.md R23, R42; 40_command_cycle.md R88). -/
structure Engine.Inv (e : Engine) : Prop where
  bijection : Function.Bijective (sboxGet e.sbox)
  dropFinished : e.dropDone = true → e.dropped = e.dropcfg
  dropPending : e.dropDone = false → e.dropped = 0
  unkeyed : e.keyed = false → e = Engine.reset

/-- The invariant of every state the block can be in. -/
structure State.Inv (s : State) : Prop where
  /-- The parameters are legal (00_scope.md R7). -/
  params : s.params.wf = true
  engine : s.engine.Inv
  /-- DMEM is in its canonical form. -/
  canonical : s.dmem.wf
  /-- Only bytes of DMEM are written (40_command_cycle.md R86, 20_memory.md R55). -/
  inDmem : s.dmem.below s.params.dmemSize
  /-- While BUSY, DONE and ERR are 0 (R82). -/
  busyFlags : s.busy = true → s.done = false ∧ s.err = false
  /-- ERR is 1 only with a nonzero ERRCODE (10_state.md R22, R26). -/
  errCode : s.err = true → s.errcode ≠ .none
  /-- RESULT never exceeds 8·DMEM_SIZE (42_bitops.md R113(d)). -/
  result : s.result.toNat ≤ 8 * s.params.dmemSize

/-- A run has ended: nothing to come and `SEQ = IDLE` (70_reset_and_hazards.md R149). -/
def State.ended (s : State) : Prop := s.inbox = [] ∧ s.seq = .idle

/-- The launch premises *reset applied*, *nothing in flight* and *parameters fixed* (70_reset_and_hazards.md
R150): the reset state with legal parameters and the host's events to come. -/
def State.launched (s : State) : Prop :=
  s.params.wf = true ∧ s = { State.reset with params := s.params, inbox := s.inbox }

/-- The DMEM bytes that a command reads for its operands, as (first address, length) (30_encoding.md R72;
HAMM reads only the common prefix, 42_bitops.md R113(b)). -/
def inputRegions (i : Instr) (o : Operands) : List (Nat × Nat) :=
  match i with
  | .init => [(o.srcA.toNat, o.lenA.toNat)]
  | .gen => []
  | .crypt => [(o.srcA.toNat, o.lenA.toNat)]
  | .flip => [(o.srcA.toNat, o.lenA.toNat)]
  | .hamm => [(o.srcA.toNat, min o.lenA.toNat o.lenB.toNat), (o.srcB.toNat, min o.lenA.toNat o.lenB.toNat)]

/-- The launch premise *inputs written*, for one command: every byte it reads is written
(10_state.md R43, 70_reset_and_hazards.md R150). -/
abbrev inputsWritten (i : Instr) (s : State) : Prop :=
  ∀ r ∈ inputRegions i s.operands, ∀ k, k < r.2 → s.dmem.lookup (r.1 + k) ≠ none

/-- What a legal transaction accesses; none where its address is not decoded or it is a bus error
(20_memory.md R46, R51, R52). -/
def Txn.target (p : Params) (x : Txn) : Option Target :=
  match windowOffset p x.addr with
  | none => none
  | some off => if isBusError off x.size then none else some (targetOf off)

/-- Where a legal write goes, if the event is one. -/
def Event.writeTarget (e : Event) (s : State) : Option Target :=
  match e with
  | .txn x => if x.write then x.target s.params else none
  | _ => none

/-- *Inputs written*, for one event of a run (70_reset_and_hazards.md R150): a host read of DMEM finds every byte
written, and so does the command that a CMD write issues, if it passes its checks. A command reads DMEM as it
stands at its issue (40_command_cycle.md R83). -/
def inputsWrittenAt (e : Event) (s : State) : Bool :=
  match e with
  | .txn x =>
    match x.target s.params with
    | some (.dmem a) => x.write || (List.range x.size.bytes).all fun k => (s.dmem.lookup (a + k)).isSome
    | some (.reg .cmd) =>
      !x.write || s.busy ||
        match decode x.wdata with
        | .ok i => check i s != .none || decide (inputsWritten i s)
        | .error _ => true
    | _ => true
  | _ => true

/-- Whether the host, before an event, has a completion still to observe: it does from an issue until it sees
`irq` high or reads STATUS with BUSY = 0 (20_memory.md R65(b), R66), or resets the block. The value is that before
the next event. -/
def waitingAfter (waiting : Bool) (e : Event) (s : State) : Bool :=
  match e with
  | .txn x =>
    if x.target s.params = some (.reg .cmd) ∧ x.write = true ∧ s.busy = false then true
    else if x.target s.params = some (.reg .status) ∧ x.write = false ∧ s.busy = false then false
    else waiting && !s.irq
  | .complete => waiting && !s.irq
  | .rst _ => false
  | .rstMidTxn _ => waiting

/-- *Serial use*, for one event of a run (70_reset_and_hazards.md R150): a CMD write comes when no completion is
still to be observed. -/
def serialAt (waiting : Bool) (e : Event) (s : State) : Bool :=
  !(waiting && !s.irq) || e.writeTarget s != some (.reg .cmd)

/-- The locations whose writes are dropped, or clear other flags, according to whether a command is still running:
STATUS, the operand registers and DMEM (10_state.md R19, 20_memory.md R63). -/
def Target.dependsOnLatency (t : Target) : Bool :=
  match t with
  | .reg .status => true
  | .reg .srcA => true
  | .reg .srcB => true
  | .reg .dst => true
  | .reg .lenA => true
  | .reg .lenB => true
  | .reg .bitidx => true
  | .reg .drop => true
  | .dmem _ => true
  | _ => false

/-- The host's duty to observe the completion before it prepares the next command (70_reset_and_hazards.md R136,
R148), for one event of a run: no completion is still to be observed when it writes STATUS, an operand register
or DMEM. *Serial use* alone does not say so (log entry 20). -/
def preparesAt (waiting : Bool) (e : Event) (s : State) : Bool :=
  !(waiting && !s.irq) ||
    match e.writeTarget s with
    | some t => !t.dependsOnLatency
    | none => true

/-- The state after an event; a fault leaves the state as it is. -/
def eventResult (e : Event) (s : State) : State :=
  match handleEvent e s with
  | .next t => t
  | _ => s

/-- A condition holds at each event of a run, in the state that the event finds. -/
def alongRun (cond : Bool → Event → State → Bool) : Bool → List Event → State → Bool
  | _, [], _ => true
  | waiting, e :: rest, s =>
    cond waiting e s && alongRun cond (waitingAfter waiting e s) rest (eventResult e (s.setInbox rest))

/-- The five launch premises of a run (70_reset_and_hazards.md R150). -/
structure State.LaunchPremises (s : State) : Prop where
  /-- *Reset applied*: the reset state, with the host's events to come. -/
  resetApplied : s = { State.reset with params := s.params, inbox := s.inbox }
  /-- *Nothing in flight*. -/
  nothingInFlight : s.seq = .idle
  /-- *Inputs written*: each byte that the program or a command of it reads is written earlier in the program. -/
  inputsWritten : alongRun (fun _ => inputsWrittenAt) false s.inbox s = true
  /-- *Serial use*: an observed completion of the previous command comes before every CMD write. -/
  serialUse : alongRun serialAt false s.inbox s = true
  /-- *Parameters fixed*: legal ones, which no step changes (log entry 1). -/
  parametersFixed : s.params.wf = true

/-- Along the whole run the host observes each completion before it prepares the next command. -/
def State.preparesInOrder (s : State) : Prop := alongRun preparesAt false s.inbox s = true

/-- The events by which a program acts on the block: its writes and resets, in order. Two runs with the same ones
are runs of one program: where the completions fall, and how often the host polls, is latency. -/
def hostActions (es : List Event) : List Event :=
  es.filter fun e =>
    match e with
    | .txn x => x.write
    | .complete => false
    | .rst _ => true
    | .rstMidTxn _ => true

/-- The state the spec gives the block (10_state.md R14), which is the final state of R149 where a run has ended:
the model's own draw counter, events and responses taken out (log entries 2, 3, 4). -/
def State.architectural (s : State) : State := { s with draws := 0, inbox := [], responses := [] }

/-- The next step completes command i: BUSY with a word that decodes to i, and the sequencer moves next. -/
def State.completing (s : State) (i : Instr) : Prop :=
  ∃ w, s.seq = .busy w ∧ decode w = .ok i ∧ (s.inbox = [] ∨ s.inbox.head? = some .complete)

/-- The next step completes command i, and the command passes its checks. -/
def State.passing (s : State) (i : Instr) : Prop := s.completing i ∧ check i s = .none

/-- The next step is a clock edge with `rst = 1`. -/
def State.resetting (s : State) : Prop := ∃ t, s.inbox.head? = some (.rst t)

/-- A host read of an offset (20_memory.md R46). -/
def hostRead (z : Size) (off : Nat) (s : State) : State := access (readAt s.params z off) s

/-- A host write to an offset (20_memory.md R46). -/
def hostWrite (z : Size) (off : Nat) (v : Word) (s : State) : State := access (writeAt s.params z off v) s

/-- The engine after n keystream steps (41_cipher.md R94). -/
def Engine.after (e : Engine) (n : Nat) : Engine := loop (fun _ x => (prgaStep x).2) n e

/-- Keystream byte n of an engine, counted from 0 (41_cipher.md R97). -/
def Engine.keystream (e : Engine) (n : Nat) : Byte := (prgaStep (e.after n)).1

/-- How many pairs (k, n), k below `len` and n below 8, name a bit in which element k of the two byte sequences
differs (00_scope.md R13, "number of differing bits"). -/
def differingBits (a b : List Byte) (len : Nat) : Nat :=
  (List.range len ×ˢ List.range 8).countP fun p => (a.getD p.1 0).getLsbD p.2 != (b.getD p.1 0).getLsbD p.2

/-- The Hamming distance of two byte sequences, over their common prefix (42_bitops.md R112). -/
def hammingDistance (a b : List Byte) : Nat := differingBits a b (min a.length b.length)

/-- A table with two entries exchanged (00_scope.md R9). -/
def Rc4.swap (p : Nat → Nat) (a b : Nat) : Nat → Nat :=
  fun k => if k = a then p b else if k = b then p a else p k

/-- The table and the accumulator after r rounds of key scheduling, over exact integers (41_cipher.md R93). -/
def Rc4.scheduled (key : List Nat) : Nat → (Nat → Nat) × Nat
  | 0 => (fun k => k, 0)
  | r + 1 =>
    let x := Rc4.scheduled key r
    let a := (x.2 + x.1 r + key.getD (r % key.length) 0) % 256
    (Rc4.swap x.1 r a, a)

/-- The table and the cursors after n keystream bytes (41_cipher.md R94, R99). -/
def Rc4.state (key : List Nat) : Nat → (Nat → Nat) × Nat × Nat
  | 0 => ((Rc4.scheduled key 256).1, 0, 0)
  | n + 1 =>
    let x := Rc4.state key n
    let i := (x.2.1 + 1) % 256
    let j := (x.2.2 + x.1 i) % 256
    (Rc4.swap x.1 i j, i, j)

/-- Keystream byte n of a key, counted from 0 (41_cipher.md R94): the table entry at the sum of the two
entries just exchanged. -/
def Rc4.output (key : List Nat) (n : Nat) : Nat :=
  let x := Rc4.state key (n + 1)
  x.1 ((x.1 x.2.1 + x.1 x.2.2) % 256)

end Sys2Proof.Machine
end

