-- ==== Sys2Proof/Certificates/Slice0/Obligations.lean ====
section
/-! DEFINITION. The statements about the block, for the provers. Each docstring names the rules of spec/ that
the statement formalises. -/

open Sys2Proof Sys2Proof.Machine

/-! ## Encoding -/

/-- The opcode map (30_encoding.md R71): each row's command word decodes to its command. With them, words that
are illegal by R74: OP 0x00, OP 0x06, RSV nonzero below a listed OP. -/
def Obligations.TableWordsDecodeToTheirCommands : Prop :=
  decode 0x00000001 = .ok .init ∧ decode 0x00000002 = .ok .gen ∧ decode 0x00000003 = .ok .crypt ∧
  decode 0x00000004 = .ok .flip ∧ decode 0x00000005 = .ok .hamm ∧
  decode 0x00000000 = .error (.unknownOpcode 0) ∧ decode 0x00000006 = .error (.unknownOpcode 6) ∧
  decode 0x00000101 = .error (.reservedBits 0x000001) ∧
  decode 0x80000001 = .error (.reservedBits 0x800000)

/-- Decode and encode agree in both directions, over all 2^32 words (30_encoding.md R75): a word decodes to a
command exactly when it is that command's word. -/
def Obligations.DecodeAndEncodeAgree : Prop :=
  ∀ (w : Word) (i : Instr), i.wf = true → (decode w = .ok i ↔ w = encode i)

/-- A word decodes to some command exactly when it is legal (30_encoding.md R74, its first sentence). -/
def Obligations.ExactlyTheLegalWordsDecode : Prop :=
  ∀ w : Word, (∃ i, decode w = .ok i) ↔ legalWord w = true

/-! ## Reset and launch -/

/-- The reset state, register by register (10_state.md R42): every value the rule lists, with DMEM unwritten. -/
def Obligations.ResetLeavesTheListedValues : Prop :=
  State.reset.seq = .idle ∧
  readReg .id State.reset = 0x52433401 ∧ readReg .ctrl State.reset = 0 ∧ readReg .status State.reset = 0 ∧
  readReg .srcA State.reset = 0 ∧ readReg .srcB State.reset = 0 ∧ readReg .dst State.reset = 0 ∧
  readReg .lenA State.reset = 0 ∧ readReg .lenB State.reset = 0 ∧ readReg .bitidx State.reset = 0 ∧
  readReg .drop State.reset = 0 ∧ readReg .result State.reset = 0 ∧
  State.reset.engine.i = 0 ∧ State.reset.engine.j = 0 ∧
  readReg .dropcfg State.reset = 0 ∧ readReg .dropped State.reset = 0 ∧
  (∀ k, sboxGet State.reset.engine.sbox k = k) ∧
  (∀ a, State.reset.dmem.lookup a = none) ∧ State.reset.irq = false

/-- A clock edge with `rst = 1` leaves the reset state from every state, BUSY or not, whatever the running
command had reached: DONE is not set and ERRCODE is 0 (70_reset_and_hazards.md R131, R130). The parameters and
the model's own draw counter, events and responses go on. -/
def Obligations.ResetEdgeAbandonsEverything : Prop :=
  ∀ (s : State) (rest : List Event), s.inbox = .rst none :: rest →
    step s = .next { State.reset with
      params := s.params, draws := s.draws, inbox := rest, responses := s.responses }

/-- A host transaction presented while `rst = 1` is not performed (70_reset_and_hazards.md R132): the block is in
the reset state, and the answer to a decoded one is some read value, an acknowledgement of a write, or an
error. That the error bit is left open is the model's choice (log entry 9). -/
def Obligations.TransactionDuringResetIsNotPerformed : Prop :=
  ∀ (s : State) (x : Txn) (rest : List Event), s.inbox = .rst (some x) :: rest →
    ∃ d rs, step s = .next { State.reset with params := s.params, draws := d, inbox := rest, responses := rs } ∧
      (windowOffset s.params x.addr = none → rs = s.responses) ∧
      (windowOffset s.params x.addr ≠ none → ∃ r, rs = r :: s.responses ∧
        (r = .busError ∨ (x.write = true ∧ r = .writeAck) ∨ (x.write = false ∧ ∃ v, r = .readData v)))

/-! ## The step -/

/-- A step runs the decoded command: while BUSY with a word that decodes to i, the sequencer's move is exec of i,
when nothing is to come or a completion point comes next (40_command_cycle.md R80, R87). -/
def Obligations.StepRunsTheDecodedCommand : Prop :=
  ∀ (s : State) (w : Word) (i : Instr), s.seq = .busy w → decode w = .ok i →
    (s.inbox = [] → step s = exec i s) ∧
    (∀ rest, s.inbox = .complete :: rest → step s = exec i (s.setInbox rest))

/-- The other steps: a host transaction is performed when it comes (20_memory.md R47), and while IDLE the
sequencer starts nothing by itself (70_reset_and_hazards.md R148). -/
def Obligations.StepTakesTheNextEvent : Prop :=
  ∀ s : State,
    (∀ x rest, s.inbox = .txn x :: rest → step s = .next (access x (s.setInbox rest))) ∧
    (s.seq = .idle → s.inbox = [] → step s = .next s) ∧
    (∀ rest, s.seq = .idle → s.inbox = .complete :: rest → step s = .next (s.setInbox rest))

/-- The block never stops accepting transactions (60_exceptions.md R116): a step has a next state in every
state, but where `rst` falls in the middle of a transaction, of which the spec specifies nothing
(70_reset_and_hazards.md R148; the fault there is the model's choice, log entry 8); and no step is refused. -/
def Obligations.StepStopsOnlyOnResetMidTransaction : Prop :=
  ∀ s : State, ((∃ t, step s = .next t) ↔ ∀ x, s.inbox.head? ≠ some (.rstMidTxn x)) ∧
    (∀ r, step s ≠ .refused r)

/-- Every run in which `rst` never falls in the middle of a transaction ends (40_command_cycle.md R81,
70_reset_and_hazards.md R149): from every state, whatever finite list of events without an `rstMidTxn` is to come,
the run reaches a state with nothing to come and SEQ = IDLE. With an `rstMidTxn` among them the run faults there
(R148, log entry 8). -/
def Obligations.EveryRunEnds : Prop :=
  ∀ s : State, (∀ x, Event.rstMidTxn x ∉ s.inbox) →
    ∃ t, core.run (s.inbox.length + 1) s = .next t ∧ t.ended

/-! ## Issue, checks, completion -/

/-- A host write of w to CMD (40_command_cycle.md R82, 20_memory.md R62): while IDLE it issues w, legal or not,
and changes PEND, SEQ, DONE and ERR alone; while BUSY it sets CMD_LOST and changes nothing else. Neither is a
bus error. -/
def Obligations.CmdWriteIssuesOrIsLost : Prop :=
  ∀ (s : State) (w : Word),
    (s.seq = .idle → hostWrite .b4 0x00C w s =
      ({ s with seq := .busy w, done := false, err := false } : State).respond .writeAck) ∧
    (∀ p, s.seq = .busy p → hostWrite .b4 0x00C w s = ({ s with cmdLost := true } : State).respond .writeAck)

/-- An illegal word in PEND completes with ILLEGAL_CMD, before every other check and with no other effect
(40_command_cycle.md R84, 30_encoding.md R74), when nothing is to come or a completion point comes next. -/
def Obligations.IllegalWordCompletesWithIllegalCmd : Prop :=
  ∀ (s : State) (w : Word), s.seq = .busy w → legalWord w = false →
    (s.inbox = [] →
      step s = .next { s with seq := .idle, done := true, err := true, errcode := .illegalCmd }) ∧
    (∀ rest, s.inbox = .complete :: rest → step s = .next { s with
      seq := .idle, done := true, err := true, errcode := .illegalCmd, inbox := rest })

/-- The checks of a legal command and their order (40_command_cycle.md R85, R86; order of R89): NOT_KEYED for GEN
and CRYPT, INVALID_KEY for INIT, ADDR_RANGE over each region with exact sums, BIT_INDEX_RANGE for FLIP. -/
def Obligations.ChecksComeInOrder : Prop :=
  ∀ (i : Instr) (s : State), check i s =
    if (i = .gen ∨ i = .crypt) ∧ s.engine.keyed = false then .notKeyed
    else if i = .init ∧ ¬ (1 ≤ s.operands.lenA.toNat ∧ s.operands.lenA.toNat ≤ 256) then .invalidKey
    else if (match i with
      | .init => decide (s.fits s.operands.srcA s.operands.lenA)
      | .gen => decide (s.fits s.operands.dst s.operands.lenA)
      | .crypt =>
        decide (s.fits s.operands.srcA s.operands.lenA) && decide (s.fits s.operands.dst s.operands.lenA)
      | .flip =>
        decide (s.fits s.operands.srcA s.operands.lenA) && decide (s.fits s.operands.dst s.operands.lenA)
      | .hamm =>
        decide (s.fits s.operands.srcA s.operands.lenA) && decide (s.fits s.operands.srcB s.operands.lenB)) = false
      then .addrRange
    else if i = .flip ∧ ¬ (s.operands.bitidx.toNat < 8 * s.operands.lenA.toNat) then .bitIndexRange
    else .none

/-- A failed command changes nothing but SEQ, DONE, ERR and ERRCODE (40_command_cycle.md R88): a command of the
table that fails a check, and an illegal word (R84). -/
def Obligations.FailedCommandChangesOnlyStatus : Prop :=
  (∀ (i : Instr) (s : State), check i s ≠ .none →
    exec i s = .next { s with seq := .idle, done := true, err := true, errcode := check i s }) ∧
  (∀ (s : State) (w : Word), s.seq = .busy w → legalWord w = false →
    sequencerMove s = .next { s with seq := .idle, done := true, err := true, errcode := .illegalCmd })

/-- Every completion, of every command and of an illegal word, leaves SEQ = IDLE, DONE = 1, ERR set exactly for a
nonzero code, and that code in ERRCODE (40_command_cycle.md R84, R87, 10_state.md R21, R22, R26). -/
def Obligations.CompletionWritesStatus : Prop :=
  (∀ (i : Instr) (s : State), ∃ t, exec i s = .next t ∧
    t.seq = .idle ∧ t.done = true ∧ t.err = (check i s != .none) ∧ t.errcode = check i s) ∧
  (∀ (s : State) (w : Word), s.seq = .busy w → legalWord w = false → ∃ t, sequencerMove s = .next t ∧
    t.seq = .idle ∧ t.done = true ∧ t.err = true ∧ t.errcode = .illegalCmd)

/-! ## INIT and the cipher primitives -/

/-- INIT on a written key builds a new instance (41_cipher.md R100): S from the key, cursors 0, KEYED, DROPCFG from
DROP, DROPPED and DROP_DONE 0; nothing else but the status of a completion changes. -/
def Obligations.InitBuildsTheInstance : Prop :=
  ∀ (s : State) (key : List Byte), 1 ≤ key.length → key.length ≤ 256 →
    s.operands.lenA.toNat = key.length → s.fits s.operands.srcA s.operands.lenA →
    s.dmem.holds s.operands.srcA.toNat key →
    exec .init s = .next { s with
      engine := { sbox := ksa key, i := 0, j := 0, keyed := true, dropDone := false,
                  dropcfg := s.operands.drop, dropped := 0 }
      seq := .idle, done := true, err := false, errcode := .none }

/-- INIT completes on every key region that passes its checks, written or not (41_cipher.md R100, 10_state.md
R43): the key it schedules has LEN_A bytes and agrees with every written byte of the region. -/
def Obligations.InitCompletesOnEveryKeyRegion : Prop :=
  ∀ s : State, 1 ≤ s.operands.lenA.toNat → s.operands.lenA.toNat ≤ 256 →
    s.fits s.operands.srcA s.operands.lenA →
    ∃ (key : List Byte) (t : State), exec .init s = .next t ∧
      key.length = s.operands.lenA.toNat ∧
      (∀ k, k < key.length → ∀ b, s.dmem.lookup (s.operands.srcA.toNat + k) = some b → key[k]? = some b) ∧
      t.engine = { sbox := ksa key, i := 0, j := 0, keyed := true, dropDone := false,
                   dropcfg := s.operands.drop, dropped := 0 } ∧
      t.seq = .idle ∧ t.done = true ∧ t.err = false ∧ t.errcode = .none

/-- INIT's frame: RESULT, DMEM and the operand registers are unchanged (41_cipher.md R100, "Writes"), as are CTRL
and CMD_LOST; every byte of DMEM reads as before. -/
def Obligations.InitFrame : Prop :=
  ∀ s t : State, exec .init s = .next t →
    t.result = s.result ∧ t.operands = s.operands ∧ t.irqEn = s.irqEn ∧ t.cmdLost = s.cmdLost ∧
    t.params = s.params ∧ t.inbox = s.inbox ∧ t.responses = s.responses ∧
    ∀ a, t.dmem.lookup a = s.dmem.lookup a

/-- The cipher unit reproduces RC4 (00_scope.md R2; 41_cipher.md R93, R94, R99): after INIT on any legal key, every
keystream byte, however far, is the one that RC4 over exact integers with reductions mod 256 gives. -/
def Obligations.CipherReproducesRc4 : Prop :=
  ∀ (s t : State) (key : List Byte), 1 ≤ key.length → key.length ≤ 256 →
    s.operands.lenA.toNat = key.length → s.fits s.operands.srcA s.operands.lenA →
    s.dmem.holds s.operands.srcA.toNat key → exec .init s = .next t →
    ∀ n, (t.engine.keystream n).toNat = Rc4.output (key.map BitVec.toNat) n

/-- A key repeated any number of times schedules the same permutation, since the KSA reads `key[i mod L]`
(41_cipher.md R93; vectors K8, K9 of 95_test_vectors.md). -/
def Obligations.RepeatedKeySchedulesTheSame : Prop :=
  ∀ (key : List Byte) (m : Nat), 1 ≤ key.length → 1 ≤ m → ksa (List.replicate m key).flatten = ksa key

/-- One keystream step (41_cipher.md R94, R95): the cursors mod 256, the swap entry by entry, the output read after
the swap; the other fields of the instance stay. -/
def Obligations.PrgaStepFollowsTheRule : Prop :=
  ∀ (e : Engine) (i j : Byte), i = e.i + 1 → j = e.j + sboxGet e.sbox i →
    (prgaStep e).2.i = i ∧ (prgaStep e).2.j = j ∧
    (∀ k, sboxGet (prgaStep e).2.sbox k =
      if k = i then sboxGet e.sbox j else if k = j then sboxGet e.sbox i else sboxGet e.sbox k) ∧
    (prgaStep e).1 = sboxGet (prgaStep e).2.sbox (sboxGet e.sbox j + sboxGet e.sbox i) ∧
    (i = j → (prgaStep e).2.sbox = e.sbox ∧ (prgaStep e).1 = sboxGet e.sbox (2 * sboxGet e.sbox i)) ∧
    (prgaStep e).2.keyed = e.keyed ∧ (prgaStep e).2.dropDone = e.dropDone ∧
    (prgaStep e).2.dropcfg = e.dropcfg ∧ (prgaStep e).2.dropped = e.dropped

/-- The lazy drop (41_cipher.md R96): nothing once DROP_DONE; else exactly DROPCFG steps, each counted in DROPPED,
and DROP_DONE. -/
def Obligations.DropRunsOnce : Prop :=
  ∀ e : Engine,
    (e.dropDone = true → doDrop e = e) ∧
    (e.dropDone = false →
      doDrop e = { e.after e.dropcfg.toNat with dropped := e.dropped + e.dropcfg, dropDone := true }) ∧
    doDrop (doDrop e) = doDrop e

/-- Determinism (41_cipher.md R106): two INITs with equal key bytes and equal DROP give equal instances, and GENs of
equal counts after them write equal keystream bytes and leave equal instances, wherever they write. -/
def Obligations.EqualKeysGiveEqualKeystreams : Prop :=
  ∀ (s₁ s₂ t₁ t₂ u₁ u₂ : State) (o₁ o₂ : Operands) (key : List Byte),
    s₁.operands.lenA.toNat = key.length → s₂.operands.lenA.toNat = key.length →
    s₁.dmem.holds s₁.operands.srcA.toNat key → s₂.dmem.holds s₂.operands.srcA.toNat key →
    check .init s₁ = .none → check .init s₂ = .none → s₁.operands.drop = s₂.operands.drop →
    exec .init s₁ = .next t₁ → exec .init s₂ = .next t₂ →
    o₁.lenA = o₂.lenA → check .gen (t₁.setOperands o₁) = .none → check .gen (t₂.setOperands o₂) = .none →
    exec .gen (t₁.setOperands o₁) = .next u₁ → exec .gen (t₂.setOperands o₂) = .next u₂ →
    t₁.engine = t₂.engine ∧ u₁.engine = u₂.engine ∧
    ∀ k, k < o₁.lenA.toNat →
      u₁.dmem.lookup (o₁.dst.toNat + k) = u₂.dmem.lookup (o₂.dst.toNat + k)

/-! ## GEN -/

/-- GEN (41_cipher.md R102): with an instance and its region in range it runs the pending drop, then writes the next
LEN_A keystream bytes in order from DST up, and leaves the engine past them. LEN_A = 0 still runs the drop. -/
def Obligations.GenWritesTheKeystream : Prop :=
  ∀ s : State, s.engine.keyed = true → s.fits s.operands.dst s.operands.lenA →
    ∃ t, exec .gen s = .next t ∧
      t.engine = (doDrop s.engine).after s.operands.lenA.toNat ∧
      (∀ k, k < s.operands.lenA.toNat →
        t.dmem.lookup (s.operands.dst.toNat + k) = some ((doDrop s.engine).keystream k)) ∧
      t.seq = .idle ∧ t.done = true ∧ t.err = false ∧ t.errcode = .none

/-- GEN's frame (41_cipher.md R102, "Writes"): RESULT, KEYED, DROPCFG, the operand registers, CTRL and CMD_LOST are
unchanged, nothing is drawn, and every byte outside DST .. DST+LEN_A-1 reads as before. -/
def Obligations.GenFrame : Prop :=
  ∀ s t : State, exec .gen s = .next t →
    t.result = s.result ∧ t.engine.keyed = s.engine.keyed ∧ t.engine.dropcfg = s.engine.dropcfg ∧
    t.operands = s.operands ∧ t.irqEn = s.irqEn ∧ t.cmdLost = s.cmdLost ∧ t.params = s.params ∧
    t.inbox = s.inbox ∧ t.responses = s.responses ∧ t.draws = s.draws ∧
    ∀ a, a < s.operands.dst.toNat ∨ s.operands.dst.toNat + s.operands.lenA.toNat ≤ a →
      t.dmem.lookup a = s.dmem.lookup a

/-- Splitting a request changes nothing (41_cipher.md R97): GEN of n₁ bytes and then GEN of n₂ bytes right behind
them leave the engine and every byte of DMEM as one GEN of n₁ + n₂ bytes does. -/
def Obligations.SplitGenEqualsOneGen : Prop :=
  ∀ (s t₁ t₂ t : State) (o₁ o₂ o : Operands),
    s.engine.keyed = true → o.lenA.toNat = o₁.lenA.toNat + o₂.lenA.toNat →
    o.dst = o₁.dst → o₂.dst.toNat = o₁.dst.toNat + o₁.lenA.toNat → s.fits o.dst o.lenA →
    exec .gen (s.setOperands o₁) = .next t₁ → exec .gen (t₁.setOperands o₂) = .next t₂ →
    exec .gen (s.setOperands o) = .next t →
    t₂.engine = t.engine ∧ ∀ a, t₂.dmem.lookup a = t.dmem.lookup a

/-! ## CRYPT -/

/-- CRYPT (41_cipher.md R104, R105): with an instance and both regions in range it runs the pending drop, advances
the engine LEN_A steps, and writes every byte of the output. Output byte k is input byte k XOR keystream byte
k; input byte k is the byte that stood at SRC_A + k before the command, or, where an earlier iteration of this
command wrote that address (partial overlap), the byte it wrote there. -/
def Obligations.CryptXorsTheKeystream : Prop :=
  ∀ s : State, s.engine.keyed = true →
    s.fits s.operands.srcA s.operands.lenA → s.fits s.operands.dst s.operands.lenA →
    ∃ t, exec .crypt s = .next t ∧
      t.engine = (doDrop s.engine).after s.operands.lenA.toNat ∧
      (∀ k, k < s.operands.lenA.toNat → t.dmem.lookup (s.operands.dst.toNat + k) ≠ none) ∧
      (∀ k b, k < s.operands.lenA.toNat →
        s.operands.srcA.toNat + k < s.operands.dst.toNat ∨ s.operands.dst.toNat ≤ s.operands.srcA.toNat →
        s.dmem.lookup (s.operands.srcA.toNat + k) = some b →
        t.dmem.lookup (s.operands.dst.toNat + k) = some (b ^^^ (doDrop s.engine).keystream k)) ∧
      (∀ k j c, k < s.operands.lenA.toNat → j < k →
        s.operands.srcA.toNat + k = s.operands.dst.toNat + j →
        t.dmem.lookup (s.operands.dst.toNat + j) = some c →
        t.dmem.lookup (s.operands.dst.toNat + k) = some (c ^^^ (doDrop s.engine).keystream k)) ∧
      t.seq = .idle ∧ t.done = true ∧ t.err = false ∧ t.errcode = .none

/-- CRYPT's frame (41_cipher.md R104, "Writes"): RESULT, KEYED, DROPCFG, the operand registers, CTRL and CMD_LOST are
unchanged, and every byte outside DST .. DST+LEN_A-1 reads as before. -/
def Obligations.CryptFrame : Prop :=
  ∀ s t : State, exec .crypt s = .next t →
    t.result = s.result ∧ t.engine.keyed = s.engine.keyed ∧ t.engine.dropcfg = s.engine.dropcfg ∧
    t.operands = s.operands ∧ t.irqEn = s.irqEn ∧ t.cmdLost = s.cmdLost ∧ t.params = s.params ∧
    t.inbox = s.inbox ∧ t.responses = s.responses ∧
    ∀ a, a < s.operands.dst.toNat ∨ s.operands.dst.toNat + s.operands.lenA.toNat ≤ a →
      t.dmem.lookup a = s.dmem.lookup a

/-- Symmetry (41_cipher.md R107): INIT, CRYPT of P to C, INIT again from the same key and drop, CRYPT of C to P'
gives P' = P. Each CRYPT's regions are equal or disjoint, and C does not overwrite the key. -/
def Obligations.DecryptUndoesEncrypt : Prop :=
  ∀ (s s₁ s₂ s₃ s₄ : State) (k₁ c₁ k₂ c₂ : Operands) (key plain : List Byte),
    k₁.lenA.toNat = key.length → k₂ = k₁ →
    s.dmem.holds k₁.srcA.toNat key → s.dmem.holds c₁.srcA.toNat plain →
    c₁.lenA.toNat = plain.length → c₂.lenA = c₁.lenA → c₂.srcA = c₁.dst →
    c₁.dst = c₁.srcA ∨ disjoint c₁.srcA.toNat c₁.dst.toNat plain.length →
    c₂.dst = c₂.srcA ∨ disjoint c₂.srcA.toNat c₂.dst.toNat plain.length →
    k₁.srcA.toNat + key.length ≤ c₁.dst.toNat ∨ c₁.dst.toNat + plain.length ≤ k₁.srcA.toNat →
    check .init (s.setOperands k₁) = .none → exec .init (s.setOperands k₁) = .next s₁ →
    check .crypt (s₁.setOperands c₁) = .none → exec .crypt (s₁.setOperands c₁) = .next s₂ →
    check .init (s₂.setOperands k₂) = .none → exec .init (s₂.setOperands k₂) = .next s₃ →
    check .crypt (s₃.setOperands c₂) = .none → exec .crypt (s₃.setOperands c₂) = .next s₄ →
    s₄.dmem.holds c₂.dst.toNat plain

/-! ## FLIP and HAMM -/

/-- FLIP (42_bitops.md R109, R110): with both regions in range and the bit index below 8·LEN_A it writes every byte
of the output. Output byte k is input byte k, with bit BITIDX mod 8 inverted where k = BITIDX div 8; input byte
k is the byte that stood at SRC_A + k before the command, or the one an earlier iteration of this command wrote
there (partial overlap). -/
def Obligations.FlipInvertsOneBit : Prop :=
  ∀ s : State, s.fits s.operands.srcA s.operands.lenA → s.fits s.operands.dst s.operands.lenA →
    s.operands.bitidx.toNat < 8 * s.operands.lenA.toNat →
    ∃ t, exec .flip s = .next t ∧
      (∀ k, k < s.operands.lenA.toNat → t.dmem.lookup (s.operands.dst.toNat + k) ≠ none) ∧
      (∀ k j b, k < s.operands.lenA.toNat →
        ((s.operands.srcA.toNat + k < s.operands.dst.toNat ∨ s.operands.dst.toNat ≤ s.operands.srcA.toNat) ∧
            s.dmem.lookup (s.operands.srcA.toNat + k) = some b) ∨
          (j < k ∧ s.operands.srcA.toNat + k = s.operands.dst.toNat + j ∧
            t.dmem.lookup (s.operands.dst.toNat + j) = some b) →
        ∃ v, t.dmem.lookup (s.operands.dst.toNat + k) = some v ∧
          ∀ n, n < 8 → v.getLsbD n =
            if k = s.operands.bitidx.toNat / 8 ∧ n = s.operands.bitidx.toNat % 8 then !b.getLsbD n
            else b.getLsbD n) ∧
      t.seq = .idle ∧ t.done = true ∧ t.err = false ∧ t.errcode = .none

/-- FLIP's frame (42_bitops.md R109, "Writes"): everything but the status of a completion, and every byte outside
DST .. DST+LEN_A-1, is unchanged. -/
def Obligations.FlipFrame : Prop :=
  ∀ s t : State, exec .flip s = .next t →
    t.result = s.result ∧ t.engine = s.engine ∧ t.operands = s.operands ∧ t.irqEn = s.irqEn ∧
    t.cmdLost = s.cmdLost ∧ t.params = s.params ∧ t.inbox = s.inbox ∧ t.responses = s.responses ∧
    ∀ a, a < s.operands.dst.toNat ∨ s.operands.dst.toNat + s.operands.lenA.toNat ≤ a →
      t.dmem.lookup a = s.dmem.lookup a

/-- A bit index at or beyond 8·LEN_A fails with BIT_INDEX_RANGE once the regions are in range (42_bitops.md R109,
R110(a); 10_state.md R29): every index for length 0, and every index that reads as a two's-complement negative
number, in any legal configuration. -/
def Obligations.FlipRejectsBitsOutOfRange : Prop :=
  ∀ s : State, s.params.wf = true →
    s.fits s.operands.srcA s.operands.lenA → s.fits s.operands.dst s.operands.lenA →
    s.operands.lenA = 0 ∨ s.operands.bitidx.toInt < 0 ∨
      8 * s.operands.lenA.toNat ≤ s.operands.bitidx.toNat →
    exec .flip s = .next { s with seq := .idle, done := true, err := true, errcode := .bitIndexRange }

/-- Flip round trip (42_bitops.md R111): FLIP from A to B with an index and then from B to C with the same index
leaves C equal to A, for regions that are disjoint or equal pairwise along each FLIP. -/
def Obligations.FlipTwiceRestores : Prop :=
  ∀ (s t u : State) (o₁ o₂ : Operands) (x : List Byte),
    s.dmem.holds o₁.srcA.toNat x → o₁.lenA.toNat = x.length → o₂.lenA = o₁.lenA → o₂.bitidx = o₁.bitidx →
    o₂.srcA = o₁.dst →
    o₁.dst = o₁.srcA ∨ disjoint o₁.srcA.toNat o₁.dst.toNat x.length →
    o₂.dst = o₂.srcA ∨ disjoint o₂.srcA.toNat o₂.dst.toNat x.length →
    check .flip (s.setOperands o₁) = .none → exec .flip (s.setOperands o₁) = .next t →
    check .flip (t.setOperands o₂) = .none → exec .flip (t.setOperands o₂) = .next u →
    u.dmem.holds o₂.dst.toNat x

/-- HAMM on written buffers (42_bitops.md R112): RESULT becomes the number of pairs of a byte position k below
min(LEN_A, LEN_B) and a bit position n below 8 at which the two buffers differ, and nothing else but the status of
a completion changes. -/
def Obligations.HammCountsDifferingBits : Prop :=
  ∀ (s : State) (a b : List Byte),
    s.operands.lenA.toNat = a.length → s.operands.lenB.toNat = b.length →
    s.fits s.operands.srcA s.operands.lenA → s.fits s.operands.srcB s.operands.lenB →
    s.dmem.holds s.operands.srcA.toNat a → s.dmem.holds s.operands.srcB.toNat b →
    exec .hamm s = .next { s with
      result := BitVec.ofNat 32 (hammingDistance a b), seq := .idle, done := true, err := false, errcode := .none }

/-- HAMM's bounds on any buffers, written or not (42_bitops.md R113(d), R114): it completes with RESULT at most
8·min(LEN_A, LEN_B), in any legal configuration; and RESULT is 0 for a buffer against itself when its bytes
are written. -/
def Obligations.HammStaysInItsBounds : Prop :=
  ∀ s : State, s.params.wf = true →
    s.fits s.operands.srcA s.operands.lenA → s.fits s.operands.srcB s.operands.lenB →
    ∃ t, exec .hamm s = .next t ∧
      t.result.toNat ≤ 8 * min s.operands.lenA.toNat s.operands.lenB.toNat ∧
      (s.operands.srcB = s.operands.srcA → s.operands.lenB = s.operands.lenA → inputsWritten .hamm s →
        t.result = 0) ∧
      t.seq = .idle ∧ t.done = true ∧ t.err = false ∧ t.errcode = .none

/-- HAMM's frame (42_bitops.md R112, "Writes"): everything but RESULT and the status of a completion is unchanged;
every byte of DMEM reads as before. -/
def Obligations.HammFrame : Prop :=
  ∀ s t : State, exec .hamm s = .next t →
    t.engine = s.engine ∧ t.operands = s.operands ∧ t.irqEn = s.irqEn ∧ t.cmdLost = s.cmdLost ∧
    t.params = s.params ∧ t.inbox = s.inbox ∧ t.responses = s.responses ∧
    ∀ a, t.dmem.lookup a = s.dmem.lookup a

/-- FLIP and HAMM and the cipher state (42_bitops.md R115): they leave all of it alone, and none of it matters to
them: with any other engine they do the same. FLIP does not write RESULT, HAMM does not write DMEM. -/
def Obligations.BitOpsIgnoreTheCipher : Prop :=
  ∀ (s t : State) (e : Engine),
    (exec .flip s = .next t →
      t.engine = s.engine ∧ t.result = s.result ∧ exec .flip (s.setEngine e) = .next (t.setEngine e)) ∧
    (exec .hamm s = .next t →
      t.engine = s.engine ∧ t.dmem = s.dmem ∧ exec .hamm (s.setEngine e) = .next (t.setEngine e))

/-! ## All commands -/

/-- A command reads only the operand registers of its row (30_encoding.md R72): with any values in the others it
does the same. -/
def Obligations.OnlyListedOperandsMatter : Prop :=
  ∀ (i : Instr) (s t : State) (o : Operands), exec i s = .next t →
    (match i with
      | .init => o.srcA = s.operands.srcA ∧ o.lenA = s.operands.lenA ∧ o.drop = s.operands.drop
      | .gen => o.dst = s.operands.dst ∧ o.lenA = s.operands.lenA
      | .crypt => o.srcA = s.operands.srcA ∧ o.dst = s.operands.dst ∧ o.lenA = s.operands.lenA
      | .flip => o.srcA = s.operands.srcA ∧ o.dst = s.operands.dst ∧ o.lenA = s.operands.lenA ∧
          o.bitidx = s.operands.bitidx
      | .hamm => o.srcA = s.operands.srcA ∧ o.srcB = s.operands.srcB ∧ o.lenA = s.operands.lenA ∧
          o.lenB = s.operands.lenB) →
    exec i (s.setOperands o) = .next (t.setOperands o)

/-- What written inputs are good for. A command whose inputs are written (10_state.md R43) depends on no unspecified
value: it draws none, and with any other value of the model's draw counter (log entry 2) it does the same. And a
program that meets the five launch premises, and observes each completion before it prepares the next command, has
one final state whatever the latencies are (70_reset_and_hazards.md R150, R149): two runs of it with the same
parameters, wherever their completions fall and however often the host reads, end in the same state. That *serial
use* alone does not give it, and the premise about preparing is needed, is read from R136 and R148 (log entry
20). -/
def Obligations.WrittenInputsDrawNothing : Prop :=
  (∀ (i : Instr) (s t : State), inputsWritten i s → exec i s = .next t →
    t.draws = s.draws ∧ ∀ n, exec i (s.setDraws n) = .next (t.setDraws n)) ∧
  (∀ (s₁ s₂ t₁ t₂ : State) (n₁ n₂ : Nat),
    s₁.LaunchPremises → s₂.LaunchPremises → s₁.preparesInOrder → s₂.preparesInOrder →
    s₁.params = s₂.params → hostActions s₁.inbox = hostActions s₂.inbox →
    core.run n₁ s₁ = .next t₁ → core.run n₂ s₂ = .next t₂ → t₁.ended → t₂.ended →
    t₁.architectural = t₂.architectural)

/-! ## Host accesses -/

/-- ID reads its constant in every state, BUSY or not, and a write to it is ignored (10_state.md R17). -/
def Obligations.IdReadsItsConstant : Prop :=
  ∀ (s : State) (v : Word),
    hostRead .b4 0x000 s = s.respond (.readData 0x52433401) ∧ hostWrite .b4 0x000 v s = s.respond .writeAck

/-- CTRL stores bit 0 of any write, also while BUSY, and reads it back with bits 31:1 zero (10_state.md R18). -/
def Obligations.CtrlStoresOneBit : Prop :=
  ∀ (s : State) (v : Word),
    hostWrite .b4 0x004 v s = ({ s with irqEn := v.getLsbD 0 } : State).respond .writeAck ∧
    hostRead .b4 0x004 s = s.respond (.readData (if s.irqEn then 1 else 0)) ∧
    State.reset.irqEn = false

/-- STATUS (10_state.md R19, R20 to R26): what each bit reads, in every state, ERRCODE by the numbers of
60_exceptions.md R117; and a write clears exactly the W1C bits it has a 1 for, also while BUSY. -/
def Obligations.StatusReadsAndClears : Prop :=
  ∀ (s : State) (v : Word),
    (∃ w : Word, hostRead .b4 0x008 s = s.respond (.readData w) ∧
      w.getLsbD 0 = s.busy ∧ w.getLsbD 1 = s.done ∧ w.getLsbD 2 = s.err ∧ w.getLsbD 3 = s.engine.keyed ∧
      w.getLsbD 4 = s.engine.dropDone ∧ w.getLsbD 5 = s.cmdLost ∧ w.extractLsb' 6 2 = 0 ∧
      (w.extractLsb' 8 4).toNat = (match s.errcode with
        | .none => 0
        | .invalidKey => 1
        | .bitIndexRange => 2
        | .illegalCmd => 3
        | .notKeyed => 4
        | .addrRange => 5) ∧
      w.extractLsb' 12 20 = 0) ∧
    hostWrite .b4 0x008 v s = ({ s with
      done := s.done && !v.getLsbD 1, err := s.err && !v.getLsbD 2,
      cmdLost := s.cmdLost && !v.getLsbD 5 } : State).respond .writeAck ∧
    statusWord State.reset = 0

/-- The seven operand registers, while IDLE (10_state.md R28, R29, R30): all 32 bits are stored, no other register
of the map changes, and the value reads back unchanged. -/
def Obligations.OperandRegistersStoreAllBits : Prop :=
  ∀ (s : State) (r : Reg) (v : Word), s.seq = .idle →
    r ∈ [Reg.srcA, .srcB, .dst, .lenA, .lenB, .bitidx, .drop] →
    ∃ t : State, hostWrite .b4 (offsetOf r) v s = t.respond .writeAck ∧
      t = s.setOperands t.operands ∧ readReg r t = v ∧ (∀ r', r' ≠ r → readReg r' t = readReg r' s) ∧
      hostRead .b4 (offsetOf r) t = t.respond (.readData v)

/-- Read-only, write-only and reserved locations (10_state.md R17, R27, R31 to R35, R37): a legal write to ID,
RESULT, CURSORS, DROPCFG, DROPPED, a reserved offset or the SBOX window changes nothing, a legal read of a reserved
offset returns 0, and a 4-byte read of CMD returns 0 and has no effect, in every state. -/
def Obligations.ReadOnlyAndReservedIgnoreWrites : Prop :=
  (∀ s : State, hostRead .b4 0x00C s = s.respond (.readData 0)) ∧
  ∀ (s : State) (z : Size) (off : Nat) (v : Word), isBusError off z = false → off < 0x1000 →
    ((off = 0 ∨ 0x02C ≤ off) → hostWrite z off v s = s.respond .writeAck) ∧
    ((0x03C ≤ off ∧ off < 0x100) ∨ 0x200 ≤ off → hostRead z off s = s.respond (.readData 0))

/-- Host writes while BUSY (20_memory.md R63): CTRL and STATUS as at other times, CMD only sets CMD_LOST, every
other legal write is ignored without a bus error. -/
def Obligations.BusyWritesAreDropped : Prop :=
  ∀ (s : State) (p v : Word), s.seq = .busy p →
    hostWrite .b4 0x004 v s = (writeCtrl v s).respond .writeAck ∧
    hostWrite .b4 0x008 v s = (writeStatus v s).respond .writeAck ∧
    hostWrite .b4 0x00C v s = (s.setCmdLost true).respond .writeAck ∧
    ∀ z off, isBusError off z = false → off < s.params.windowSize →
      off ≠ 0x004 → off ≠ 0x008 → off ≠ 0x00C → hostWrite z off v s = s.respond .writeAck

/-- Host reads while BUSY (20_memory.md R64): the current value of ID, CTRL, STATUS, CMD, the operand registers and
reserved offsets; a free value, of the access's width, for RESULT, CURSORS, DROPCFG, DROPPED, SBOX and DMEM,
with no change but the draw. -/
def Obligations.BusyReadsOfResultsAreFree : Prop :=
  ∀ (s : State) (p : Word), s.seq = .busy p →
    (∀ r ∈ [Reg.id, .ctrl, .status, .cmd, .srcA, .srcB, .dst, .lenA, .lenB, .bitidx, .drop],
      hostRead .b4 (offsetOf r) s = s.respond (.readData (readReg r s))) ∧
    (∀ z off, isBusError off z = false → (0x03C ≤ off ∧ off < 0x100) ∨ (0x200 ≤ off ∧ off < 0x1000) →
      hostRead z off s = s.respond (.readData 0)) ∧
    (∀ z off, isBusError off z = false → off < s.params.windowSize →
      (0x02C ≤ off ∧ off < 0x03C) ∨ (0x100 ≤ off ∧ off < 0x200) ∨ 0x1000 ≤ off →
      hostRead z off s =
        (s.setDraws (s.draws + 1)).respond (.readData (lowBytes z (Config.freeWord s.draws))))

/-- Result registers while IDLE (10_state.md R31 to R34): RESULT, CURSORS = J ++ I in bits 15:0, DROPCFG and DROPPED
read their state. -/
def Obligations.IdleReadsOfResultRegisters : Prop :=
  ∀ s : State, s.seq = .idle →
    hostRead .b4 0x02C s = s.respond (.readData s.result) ∧
    (∃ w : Word, hostRead .b4 0x030 s = s.respond (.readData w) ∧
      w.extractLsb' 0 8 = s.engine.i ∧ w.extractLsb' 8 8 = s.engine.j ∧ w.extractLsb' 16 16 = 0) ∧
    hostRead .b4 0x034 s = s.respond (.readData s.engine.dropcfg) ∧
    hostRead .b4 0x038 s = s.respond (.readData s.engine.dropped)

/-- Bus errors (20_memory.md R51, R52, R53, R57): a decoded access is answered with a bus error exactly when it is
misaligned, or not 4 bytes wide below 0x100; and then it changes no state of the block, a CMD write among
them (60_exceptions.md R121(b)). -/
def Obligations.BusErrorsChangeNothing : Prop :=
  ∀ (s : State) (x : Txn) (off : Nat), windowOffset s.params x.addr = some off →
    (off % x.size.bytes ≠ 0 ∨ (off < 0x100 ∧ x.size.bytes ≠ 4) → access x s = s.respond .busError) ∧
    (¬ (off % x.size.bytes ≠ 0 ∨ (off < 0x100 ∧ x.size.bytes ≠ 4)) →
      ∃ r, (access x s).responses = r :: s.responses ∧ r ≠ .busError)

/-- The window (20_memory.md R46): an address outside [BASE, BASE + WINDOW_SIZE) is not decoded, and the block does
nothing; one inside is decoded at its distance from BASE. -/
def Obligations.WindowDecodesItsAddresses : Prop :=
  ∀ (s : State) (x : Txn),
    (x.addr < s.params.base ∨ s.params.base + 0x1000 + s.params.dmemSize ≤ x.addr → access x s = s) ∧
    (∀ off, off < 0x1000 + s.params.dmemSize → windowOffset s.params (s.params.base + off) = some off)

/-- A read has no side effect anywhere in the window (20_memory.md R58, its first sentence): only the model's draw
counter and the response change. -/
def Obligations.ReadsHaveNoSideEffect : Prop :=
  ∀ (s : State) (x : Txn), x.write = false →
    ∃ d rs, s.draws ≤ d ∧ access x s = { s with draws := d, responses := rs }

/-- DMEM writes of the host while IDLE (20_memory.md R54, R56, R49): the low bytes of the data go to ascending
addresses, bits 7:0 first; every other byte of DMEM and everything else is unchanged. -/
def Obligations.HostWritesDmemLittleEndian : Prop :=
  ∀ (s : State) (z : Size) (a : Nat) (v : Word), s.seq = .idle → a % z.bytes = 0 →
    a < s.params.dmemSize →
    ∃ m, hostWrite z (0x1000 + a) v s = (s.setDmem m).respond .writeAck ∧
      (∀ k, k < z.bytes → m.lookup (a + k) = some (v.extractLsb' (8 * k) 8)) ∧
      (∀ b, b < a ∨ a + z.bytes ≤ b → m.lookup b = s.dmem.lookup b)

/-- DMEM reads of the host while IDLE, on written bytes (20_memory.md R54, R56, R49): byte k of the access is bits
8k+7:8k of the data, and the bits above the access's width read 0. -/
def Obligations.HostReadsDmemLittleEndian : Prop :=
  ∀ (s : State) (z : Size) (a : Nat) (bs : List Byte), s.seq = .idle → a % z.bytes = 0 →
    a < s.params.dmemSize → bs.length = z.bytes → s.dmem.holds a bs →
    ∃ w : Word, hostRead z (0x1000 + a) s = s.respond (.readData w) ∧
      (∀ k, k < z.bytes → some (w.extractLsb' (8 * k) 8) = bs[k]?) ∧ w.toNat < 2 ^ (8 * z.bytes)

/-- A host read of DMEM while IDLE, of any size, on bytes of which some are written and some not (10_state.md R43,
20_memory.md R56): a written byte reads its value, and the unwritten ones read as many fresh free values, in
ascending order; nothing but the draw counter changes, so that they stay unwritten (a draw per read is U1's
treatment, log entry 5). -/
def Obligations.UnwrittenBytesReadFree : Prop :=
  ∀ (s : State) (z : Size) (a : Nat), s.seq = .idle → a % z.bytes = 0 → a < s.params.dmemSize →
    ∃ w : Word,
      hostRead z (0x1000 + a) s =
        (s.setDraws (s.draws + (List.range z.bytes).countP fun k => (s.dmem.lookup (a + k)).isNone)).respond
          (.readData w) ∧
      (∀ k, k < z.bytes → w.extractLsb' (8 * k) 8 = (s.dmem.lookup (a + k)).getD
        (Config.freeByte (s.draws + (List.range k).countP fun j => (s.dmem.lookup (a + j)).isNone))) ∧
      w.toNat < 2 ^ (8 * z.bytes)

/-- The SBOX window while IDLE (10_state.md R37, 20_memory.md R56): a read of n bytes at 0x100 + k returns
S[k+n-1] ++ ... ++ S[k]. -/
def Obligations.SboxWindowReadsTheTable : Prop :=
  ∀ (s : State) (z : Size) (k : Nat), s.seq = .idle → k < 256 → k % z.bytes = 0 →
    ∃ w : Word, hostRead z (0x100 + k) s = s.respond (.readData w) ∧
      (∀ m, m < z.bytes → w.extractLsb' (8 * m) 8 = sboxGet s.engine.sbox (BitVec.ofNat 8 (k + m))) ∧
      w.toNat < 2 ^ (8 * z.bytes)

/-- The interrupt (60_exceptions.md R119): irq is IRQ_EN AND DONE; any completion, of a command that succeeds or fails
and of an illegal word, raises it when enabled; an issue, a STATUS write with bit 1, or a CTRL write with bit 0
clear lowers it; enabling while DONE = 1 raises it. -/
def Obligations.IrqFollowsDone : Prop :=
  ∀ (s : State) (v : Word),
    s.irq = (s.irqEn && s.done) ∧
    (∀ i t, exec i s = .next t → t.irq = s.irqEn) ∧
    (∀ w t, s.seq = .busy w → sequencerMove s = .next t → t.irq = s.irqEn) ∧
    (s.seq = .idle → (hostWrite .b4 0x00C v s).irq = false) ∧
    (v.getLsbD 1 = true → (hostWrite .b4 0x008 v s).irq = false) ∧
    (v.getLsbD 0 = false → (hostWrite .b4 0x004 v s).irq = false) ∧
    (v.getLsbD 0 = true → s.done = true → (hostWrite .b4 0x004 v s).irq = true)

/-- The host cannot disturb a running command (40_command_cycle.md R83, 20_memory.md R63): no transaction while BUSY
changes SEQ, PEND, an operand register, DMEM, the engine, RESULT or ERRCODE. -/
def Obligations.HostCannotDisturbARunningCommand : Prop :=
  ∀ (s : State) (x : Txn), s.busy = true →
    (access x s).seq = s.seq ∧ (access x s).operands = s.operands ∧ (access x s).dmem = s.dmem ∧
    (access x s).engine = s.engine ∧ (access x s).result = s.result ∧ (access x s).errcode = s.errcode

/-! ## The whole machine -/

/-- Every launch state meets the invariant (70_reset_and_hazards.md R150, 10_state.md R42), the reset state among
them. -/
def Obligations.LaunchStatesMeetTheInvariant : Prop :=
  State.reset.launched ∧ ∀ s : State, s.launched → s.Inv

/-- Every step keeps the invariant (10_state.md R39, R34, R23; 20_memory.md R55; 42_bitops.md R113(d)): S stays a
bijection, DROPPED stays 0 before the drop and DROPCFG after it, an engine without an instance stays as reset
left it, DMEM stays in canonical form and within DMEM_SIZE, DONE and ERR are 0 while BUSY, ERR comes with a
nonzero ERRCODE, and RESULT stays at most 8·DMEM_SIZE. -/
def Obligations.StepKeepsTheInvariant : Prop :=
  ∀ s t : State, s.Inv → step s = .next t → t.Inv

/-- Who changes the results and the cipher state, over all steps but resets. S, I and J change only where an INIT,
GEN or CRYPT that passes its checks completes (10_state.md R36, R38); DROPCFG only where such an INIT does (R33);
RESULT only where such a HAMM does (R31). KEYED never falls, and rises only where such an INIT completes (R23).
DROP_DONE falls only where such an INIT completes, and rises only where such a GEN or CRYPT does (R24). DROPPED
becomes 0 where such an INIT completes, and otherwise changes only where such a GEN or CRYPT completes with the
drop still pending (R34). -/
def Obligations.OnlyCommandsAndResetChangeResults : Prop :=
  ∀ s t : State, step s = .next t → ¬ s.resetting →
    (t.engine.sbox ≠ s.engine.sbox ∨ t.engine.i ≠ s.engine.i ∨ t.engine.j ≠ s.engine.j →
      s.passing .init ∨ s.passing .gen ∨ s.passing .crypt) ∧
    (t.engine.dropcfg ≠ s.engine.dropcfg → s.passing .init) ∧
    (t.result ≠ s.result → s.passing .hamm) ∧
    (s.engine.keyed = true → t.engine.keyed = true) ∧
    (s.engine.keyed = false → t.engine.keyed = true → s.passing .init) ∧
    (s.engine.dropDone = true → t.engine.dropDone = false → s.passing .init) ∧
    (s.engine.dropDone = false → t.engine.dropDone = true → s.passing .gen ∨ s.passing .crypt) ∧
    (t.engine.dropped ≠ s.engine.dropped →
      (s.passing .init ∧ t.engine.dropped = 0) ∨
      ((s.passing .gen ∨ s.passing .crypt) ∧ s.engine.dropDone = false ∧
        t.engine.dropped = s.engine.dropped + s.engine.dropcfg))

/-- CMD_LOST is sticky (10_state.md R25): it is set only by a decoded 4-byte host write to CMD while BUSY, and cleared
only by a decoded 4-byte host write to STATUS with bit 5, or by reset. -/
def Obligations.CmdLostIsSticky : Prop :=
  ∀ s t : State, step s = .next t → ¬ s.resetting → t.cmdLost ≠ s.cmdLost →
    ∃ x, s.inbox.head? = some (.txn x) ∧ x.write = true ∧ x.size = .b4 ∧
      ((t.cmdLost = true ∧ s.busy = true ∧ windowOffset s.params x.addr = some 0x00C) ∨
       (t.cmdLost = false ∧ x.wdata.getLsbD 5 = true ∧ windowOffset s.params x.addr = some 0x008))
end

