-- ==== Sys2Proof/Laws/Loop.lean ====
section
/-! SUPPORT. The ascending loop (00_scope.md R10). -/

namespace Sys2Proof.Machine

variable {σ : Type}

@[simp] theorem loop_zero (f : Nat → σ → σ) (x : σ) : loop f 0 x = x := rfl

theorem loop_succ (f : Nat → σ → σ) (n : Nat) (x : σ) : loop f (n + 1) x = f n (loop f n x) := rfl

/-- n iterations after m are iterations m .. m+n-1. -/
theorem loop_add (f : Nat → σ → σ) (m n : Nat) (x : σ) :
    loop f (m + n) x = loop (fun k => f (m + k)) n (loop f m x) := by
  induction n with
  | zero => rfl
  | succ n ih => rw [← Nat.add_assoc, loop_succ, ih, loop_succ]

/-- What holds before the loop and is carried by each iteration holds after it. -/
theorem loop_induct {f : Nat → σ → σ} (P : Nat → σ → Prop) {n : Nat} {x : σ} (start : P 0 x)
    (carry : ∀ k y, k < n → P k y → P (k + 1) (f k y)) : P n (loop f n x) := by
  induction n with
  | zero => exact start
  | succ n ih =>
    exact carry n _ (Nat.lt_succ_self n) (ih fun k y hk => carry k y (Nat.lt_succ_of_lt hk))

/-- What every iteration leaves alone, the loop leaves alone. -/
theorem loop_keeps {τ : Type} {f : Nat → σ → σ} (g : σ → τ) (h : ∀ k y, g (f k y) = g y) (n : Nat) (x : σ) :
    g (loop f n x) = g x := by
  induction n with
  | zero => rfl
  | succ n ih => rw [loop_succ, h, ih]

/-- Two loops whose iterations agree in a view agree in that view. -/
theorem loop_rel {τ : Type} {f : Nat → σ → σ} {g : Nat → τ → τ} (R : σ → τ → Prop) {n : Nat} {x : σ} {y : τ}
    (start : R x y) (carry : ∀ k a b, k < n → R a b → R (f k a) (g k b)) :
    R (loop f n x) (loop g n y) := by
  induction n with
  | zero => exact start
  | succ n ih =>
    exact carry n _ _ (Nat.lt_succ_self n) (ih fun k a b hk => carry k a b (Nat.lt_succ_of_lt hk))

end Sys2Proof.Machine
end

