-- ==== Sys2Proof/Laws/State.lean ====
section
/-! SUPPORT. The fields of State under each named update, one lemma a field and update. -/

namespace Sys2Proof.Machine

variable (s : State)

section
variable (q : Seq)
@[simp] theorem State.setSeq_params : (s.setSeq q).params = s.params := rfl
@[simp] theorem State.setSeq_seq : (s.setSeq q).seq = q := rfl
@[simp] theorem State.setSeq_irqEn : (s.setSeq q).irqEn = s.irqEn := rfl
@[simp] theorem State.setSeq_done : (s.setSeq q).done = s.done := rfl
@[simp] theorem State.setSeq_err : (s.setSeq q).err = s.err := rfl
@[simp] theorem State.setSeq_cmdLost : (s.setSeq q).cmdLost = s.cmdLost := rfl
@[simp] theorem State.setSeq_errcode : (s.setSeq q).errcode = s.errcode := rfl
@[simp] theorem State.setSeq_operands : (s.setSeq q).operands = s.operands := rfl
@[simp] theorem State.setSeq_result : (s.setSeq q).result = s.result := rfl
@[simp] theorem State.setSeq_engine : (s.setSeq q).engine = s.engine := rfl
@[simp] theorem State.setSeq_dmem : (s.setSeq q).dmem = s.dmem := rfl
@[simp] theorem State.setSeq_draws : (s.setSeq q).draws = s.draws := rfl
@[simp] theorem State.setSeq_inbox : (s.setSeq q).inbox = s.inbox := rfl
@[simp] theorem State.setSeq_responses : (s.setSeq q).responses = s.responses := rfl
end

section
variable (b : Bool)
@[simp] theorem State.setIrqEn_params : (s.setIrqEn b).params = s.params := rfl
@[simp] theorem State.setIrqEn_seq : (s.setIrqEn b).seq = s.seq := rfl
@[simp] theorem State.setIrqEn_irqEn : (s.setIrqEn b).irqEn = b := rfl
@[simp] theorem State.setIrqEn_done : (s.setIrqEn b).done = s.done := rfl
@[simp] theorem State.setIrqEn_err : (s.setIrqEn b).err = s.err := rfl
@[simp] theorem State.setIrqEn_cmdLost : (s.setIrqEn b).cmdLost = s.cmdLost := rfl
@[simp] theorem State.setIrqEn_errcode : (s.setIrqEn b).errcode = s.errcode := rfl
@[simp] theorem State.setIrqEn_operands : (s.setIrqEn b).operands = s.operands := rfl
@[simp] theorem State.setIrqEn_result : (s.setIrqEn b).result = s.result := rfl
@[simp] theorem State.setIrqEn_engine : (s.setIrqEn b).engine = s.engine := rfl
@[simp] theorem State.setIrqEn_dmem : (s.setIrqEn b).dmem = s.dmem := rfl
@[simp] theorem State.setIrqEn_draws : (s.setIrqEn b).draws = s.draws := rfl
@[simp] theorem State.setIrqEn_inbox : (s.setIrqEn b).inbox = s.inbox := rfl
@[simp] theorem State.setIrqEn_responses : (s.setIrqEn b).responses = s.responses := rfl
end

section
variable (d e : Bool)
@[simp] theorem State.setDoneErr_params : (s.setDoneErr d e).params = s.params := rfl
@[simp] theorem State.setDoneErr_seq : (s.setDoneErr d e).seq = s.seq := rfl
@[simp] theorem State.setDoneErr_irqEn : (s.setDoneErr d e).irqEn = s.irqEn := rfl
@[simp] theorem State.setDoneErr_done : (s.setDoneErr d e).done = d := rfl
@[simp] theorem State.setDoneErr_err : (s.setDoneErr d e).err = e := rfl
@[simp] theorem State.setDoneErr_cmdLost : (s.setDoneErr d e).cmdLost = s.cmdLost := rfl
@[simp] theorem State.setDoneErr_errcode : (s.setDoneErr d e).errcode = s.errcode := rfl
@[simp] theorem State.setDoneErr_operands : (s.setDoneErr d e).operands = s.operands := rfl
@[simp] theorem State.setDoneErr_result : (s.setDoneErr d e).result = s.result := rfl
@[simp] theorem State.setDoneErr_engine : (s.setDoneErr d e).engine = s.engine := rfl
@[simp] theorem State.setDoneErr_dmem : (s.setDoneErr d e).dmem = s.dmem := rfl
@[simp] theorem State.setDoneErr_draws : (s.setDoneErr d e).draws = s.draws := rfl
@[simp] theorem State.setDoneErr_inbox : (s.setDoneErr d e).inbox = s.inbox := rfl
@[simp] theorem State.setDoneErr_responses : (s.setDoneErr d e).responses = s.responses := rfl
end

section
variable (b : Bool)
@[simp] theorem State.setCmdLost_params : (s.setCmdLost b).params = s.params := rfl
@[simp] theorem State.setCmdLost_seq : (s.setCmdLost b).seq = s.seq := rfl
@[simp] theorem State.setCmdLost_irqEn : (s.setCmdLost b).irqEn = s.irqEn := rfl
@[simp] theorem State.setCmdLost_done : (s.setCmdLost b).done = s.done := rfl
@[simp] theorem State.setCmdLost_err : (s.setCmdLost b).err = s.err := rfl
@[simp] theorem State.setCmdLost_cmdLost : (s.setCmdLost b).cmdLost = b := rfl
@[simp] theorem State.setCmdLost_errcode : (s.setCmdLost b).errcode = s.errcode := rfl
@[simp] theorem State.setCmdLost_operands : (s.setCmdLost b).operands = s.operands := rfl
@[simp] theorem State.setCmdLost_result : (s.setCmdLost b).result = s.result := rfl
@[simp] theorem State.setCmdLost_engine : (s.setCmdLost b).engine = s.engine := rfl
@[simp] theorem State.setCmdLost_dmem : (s.setCmdLost b).dmem = s.dmem := rfl
@[simp] theorem State.setCmdLost_draws : (s.setCmdLost b).draws = s.draws := rfl
@[simp] theorem State.setCmdLost_inbox : (s.setCmdLost b).inbox = s.inbox := rfl
@[simp] theorem State.setCmdLost_responses : (s.setCmdLost b).responses = s.responses := rfl
end

section
variable (c : ErrCode)
@[simp] theorem State.setErrcode_params : (s.setErrcode c).params = s.params := rfl
@[simp] theorem State.setErrcode_seq : (s.setErrcode c).seq = s.seq := rfl
@[simp] theorem State.setErrcode_irqEn : (s.setErrcode c).irqEn = s.irqEn := rfl
@[simp] theorem State.setErrcode_done : (s.setErrcode c).done = s.done := rfl
@[simp] theorem State.setErrcode_err : (s.setErrcode c).err = s.err := rfl
@[simp] theorem State.setErrcode_cmdLost : (s.setErrcode c).cmdLost = s.cmdLost := rfl
@[simp] theorem State.setErrcode_errcode : (s.setErrcode c).errcode = c := rfl
@[simp] theorem State.setErrcode_operands : (s.setErrcode c).operands = s.operands := rfl
@[simp] theorem State.setErrcode_result : (s.setErrcode c).result = s.result := rfl
@[simp] theorem State.setErrcode_engine : (s.setErrcode c).engine = s.engine := rfl
@[simp] theorem State.setErrcode_dmem : (s.setErrcode c).dmem = s.dmem := rfl
@[simp] theorem State.setErrcode_draws : (s.setErrcode c).draws = s.draws := rfl
@[simp] theorem State.setErrcode_inbox : (s.setErrcode c).inbox = s.inbox := rfl
@[simp] theorem State.setErrcode_responses : (s.setErrcode c).responses = s.responses := rfl
end

section
variable (o : Operands)
@[simp] theorem State.setOperands_params : (s.setOperands o).params = s.params := rfl
@[simp] theorem State.setOperands_seq : (s.setOperands o).seq = s.seq := rfl
@[simp] theorem State.setOperands_irqEn : (s.setOperands o).irqEn = s.irqEn := rfl
@[simp] theorem State.setOperands_done : (s.setOperands o).done = s.done := rfl
@[simp] theorem State.setOperands_err : (s.setOperands o).err = s.err := rfl
@[simp] theorem State.setOperands_cmdLost : (s.setOperands o).cmdLost = s.cmdLost := rfl
@[simp] theorem State.setOperands_errcode : (s.setOperands o).errcode = s.errcode := rfl
@[simp] theorem State.setOperands_operands : (s.setOperands o).operands = o := rfl
@[simp] theorem State.setOperands_result : (s.setOperands o).result = s.result := rfl
@[simp] theorem State.setOperands_engine : (s.setOperands o).engine = s.engine := rfl
@[simp] theorem State.setOperands_dmem : (s.setOperands o).dmem = s.dmem := rfl
@[simp] theorem State.setOperands_draws : (s.setOperands o).draws = s.draws := rfl
@[simp] theorem State.setOperands_inbox : (s.setOperands o).inbox = s.inbox := rfl
@[simp] theorem State.setOperands_responses : (s.setOperands o).responses = s.responses := rfl
end

section
variable (v : Word)
@[simp] theorem State.setResult_params : (s.setResult v).params = s.params := rfl
@[simp] theorem State.setResult_seq : (s.setResult v).seq = s.seq := rfl
@[simp] theorem State.setResult_irqEn : (s.setResult v).irqEn = s.irqEn := rfl
@[simp] theorem State.setResult_done : (s.setResult v).done = s.done := rfl
@[simp] theorem State.setResult_err : (s.setResult v).err = s.err := rfl
@[simp] theorem State.setResult_cmdLost : (s.setResult v).cmdLost = s.cmdLost := rfl
@[simp] theorem State.setResult_errcode : (s.setResult v).errcode = s.errcode := rfl
@[simp] theorem State.setResult_operands : (s.setResult v).operands = s.operands := rfl
@[simp] theorem State.setResult_result : (s.setResult v).result = v := rfl
@[simp] theorem State.setResult_engine : (s.setResult v).engine = s.engine := rfl
@[simp] theorem State.setResult_dmem : (s.setResult v).dmem = s.dmem := rfl
@[simp] theorem State.setResult_draws : (s.setResult v).draws = s.draws := rfl
@[simp] theorem State.setResult_inbox : (s.setResult v).inbox = s.inbox := rfl
@[simp] theorem State.setResult_responses : (s.setResult v).responses = s.responses := rfl
end

section
variable (e : Engine)
@[simp] theorem State.setEngine_params : (s.setEngine e).params = s.params := rfl
@[simp] theorem State.setEngine_seq : (s.setEngine e).seq = s.seq := rfl
@[simp] theorem State.setEngine_irqEn : (s.setEngine e).irqEn = s.irqEn := rfl
@[simp] theorem State.setEngine_done : (s.setEngine e).done = s.done := rfl
@[simp] theorem State.setEngine_err : (s.setEngine e).err = s.err := rfl
@[simp] theorem State.setEngine_cmdLost : (s.setEngine e).cmdLost = s.cmdLost := rfl
@[simp] theorem State.setEngine_errcode : (s.setEngine e).errcode = s.errcode := rfl
@[simp] theorem State.setEngine_operands : (s.setEngine e).operands = s.operands := rfl
@[simp] theorem State.setEngine_result : (s.setEngine e).result = s.result := rfl
@[simp] theorem State.setEngine_engine : (s.setEngine e).engine = e := rfl
@[simp] theorem State.setEngine_dmem : (s.setEngine e).dmem = s.dmem := rfl
@[simp] theorem State.setEngine_draws : (s.setEngine e).draws = s.draws := rfl
@[simp] theorem State.setEngine_inbox : (s.setEngine e).inbox = s.inbox := rfl
@[simp] theorem State.setEngine_responses : (s.setEngine e).responses = s.responses := rfl
end

section
variable (m : Memory)
@[simp] theorem State.setDmem_params : (s.setDmem m).params = s.params := rfl
@[simp] theorem State.setDmem_seq : (s.setDmem m).seq = s.seq := rfl
@[simp] theorem State.setDmem_irqEn : (s.setDmem m).irqEn = s.irqEn := rfl
@[simp] theorem State.setDmem_done : (s.setDmem m).done = s.done := rfl
@[simp] theorem State.setDmem_err : (s.setDmem m).err = s.err := rfl
@[simp] theorem State.setDmem_cmdLost : (s.setDmem m).cmdLost = s.cmdLost := rfl
@[simp] theorem State.setDmem_errcode : (s.setDmem m).errcode = s.errcode := rfl
@[simp] theorem State.setDmem_operands : (s.setDmem m).operands = s.operands := rfl
@[simp] theorem State.setDmem_result : (s.setDmem m).result = s.result := rfl
@[simp] theorem State.setDmem_engine : (s.setDmem m).engine = s.engine := rfl
@[simp] theorem State.setDmem_dmem : (s.setDmem m).dmem = m := rfl
@[simp] theorem State.setDmem_draws : (s.setDmem m).draws = s.draws := rfl
@[simp] theorem State.setDmem_inbox : (s.setDmem m).inbox = s.inbox := rfl
@[simp] theorem State.setDmem_responses : (s.setDmem m).responses = s.responses := rfl
end

section
variable (n : Nat)
@[simp] theorem State.setDraws_params : (s.setDraws n).params = s.params := rfl
@[simp] theorem State.setDraws_seq : (s.setDraws n).seq = s.seq := rfl
@[simp] theorem State.setDraws_irqEn : (s.setDraws n).irqEn = s.irqEn := rfl
@[simp] theorem State.setDraws_done : (s.setDraws n).done = s.done := rfl
@[simp] theorem State.setDraws_err : (s.setDraws n).err = s.err := rfl
@[simp] theorem State.setDraws_cmdLost : (s.setDraws n).cmdLost = s.cmdLost := rfl
@[simp] theorem State.setDraws_errcode : (s.setDraws n).errcode = s.errcode := rfl
@[simp] theorem State.setDraws_operands : (s.setDraws n).operands = s.operands := rfl
@[simp] theorem State.setDraws_result : (s.setDraws n).result = s.result := rfl
@[simp] theorem State.setDraws_engine : (s.setDraws n).engine = s.engine := rfl
@[simp] theorem State.setDraws_dmem : (s.setDraws n).dmem = s.dmem := rfl
@[simp] theorem State.setDraws_draws : (s.setDraws n).draws = n := rfl
@[simp] theorem State.setDraws_inbox : (s.setDraws n).inbox = s.inbox := rfl
@[simp] theorem State.setDraws_responses : (s.setDraws n).responses = s.responses := rfl
end

section
variable (es : List Event)
@[simp] theorem State.setInbox_params : (s.setInbox es).params = s.params := rfl
@[simp] theorem State.setInbox_seq : (s.setInbox es).seq = s.seq := rfl
@[simp] theorem State.setInbox_irqEn : (s.setInbox es).irqEn = s.irqEn := rfl
@[simp] theorem State.setInbox_done : (s.setInbox es).done = s.done := rfl
@[simp] theorem State.setInbox_err : (s.setInbox es).err = s.err := rfl
@[simp] theorem State.setInbox_cmdLost : (s.setInbox es).cmdLost = s.cmdLost := rfl
@[simp] theorem State.setInbox_errcode : (s.setInbox es).errcode = s.errcode := rfl
@[simp] theorem State.setInbox_operands : (s.setInbox es).operands = s.operands := rfl
@[simp] theorem State.setInbox_result : (s.setInbox es).result = s.result := rfl
@[simp] theorem State.setInbox_engine : (s.setInbox es).engine = s.engine := rfl
@[simp] theorem State.setInbox_dmem : (s.setInbox es).dmem = s.dmem := rfl
@[simp] theorem State.setInbox_draws : (s.setInbox es).draws = s.draws := rfl
@[simp] theorem State.setInbox_inbox : (s.setInbox es).inbox = es := rfl
@[simp] theorem State.setInbox_responses : (s.setInbox es).responses = s.responses := rfl
end

section
variable (r : Response)
@[simp] theorem State.respond_params : (s.respond r).params = s.params := rfl
@[simp] theorem State.respond_seq : (s.respond r).seq = s.seq := rfl
@[simp] theorem State.respond_irqEn : (s.respond r).irqEn = s.irqEn := rfl
@[simp] theorem State.respond_done : (s.respond r).done = s.done := rfl
@[simp] theorem State.respond_err : (s.respond r).err = s.err := rfl
@[simp] theorem State.respond_cmdLost : (s.respond r).cmdLost = s.cmdLost := rfl
@[simp] theorem State.respond_errcode : (s.respond r).errcode = s.errcode := rfl
@[simp] theorem State.respond_operands : (s.respond r).operands = s.operands := rfl
@[simp] theorem State.respond_result : (s.respond r).result = s.result := rfl
@[simp] theorem State.respond_engine : (s.respond r).engine = s.engine := rfl
@[simp] theorem State.respond_dmem : (s.respond r).dmem = s.dmem := rfl
@[simp] theorem State.respond_draws : (s.respond r).draws = s.draws := rfl
@[simp] theorem State.respond_inbox : (s.respond r).inbox = s.inbox := rfl
@[simp] theorem State.respond_responses : (s.respond r).responses = r :: s.responses := rfl
end

section
variable (w : Word)
@[simp] theorem State.issue_params : (s.issue w).params = s.params := rfl
@[simp] theorem State.issue_seq : (s.issue w).seq = .busy w := rfl
@[simp] theorem State.issue_irqEn : (s.issue w).irqEn = s.irqEn := rfl
@[simp] theorem State.issue_done : (s.issue w).done = false := rfl
@[simp] theorem State.issue_err : (s.issue w).err = false := rfl
@[simp] theorem State.issue_cmdLost : (s.issue w).cmdLost = s.cmdLost := rfl
@[simp] theorem State.issue_errcode : (s.issue w).errcode = s.errcode := rfl
@[simp] theorem State.issue_operands : (s.issue w).operands = s.operands := rfl
@[simp] theorem State.issue_result : (s.issue w).result = s.result := rfl
@[simp] theorem State.issue_engine : (s.issue w).engine = s.engine := rfl
@[simp] theorem State.issue_dmem : (s.issue w).dmem = s.dmem := rfl
@[simp] theorem State.issue_draws : (s.issue w).draws = s.draws := rfl
@[simp] theorem State.issue_inbox : (s.issue w).inbox = s.inbox := rfl
@[simp] theorem State.issue_responses : (s.issue w).responses = s.responses := rfl
end

section
variable (c : ErrCode)
@[simp] theorem State.complete_params : (s.complete c).params = s.params := rfl
@[simp] theorem State.complete_seq : (s.complete c).seq = .idle := rfl
@[simp] theorem State.complete_irqEn : (s.complete c).irqEn = s.irqEn := rfl
@[simp] theorem State.complete_done : (s.complete c).done = true := rfl
@[simp] theorem State.complete_err : (s.complete c).err = (c != .none) := rfl
@[simp] theorem State.complete_cmdLost : (s.complete c).cmdLost = s.cmdLost := rfl
@[simp] theorem State.complete_errcode : (s.complete c).errcode = c := rfl
@[simp] theorem State.complete_operands : (s.complete c).operands = s.operands := rfl
@[simp] theorem State.complete_result : (s.complete c).result = s.result := rfl
@[simp] theorem State.complete_engine : (s.complete c).engine = s.engine := rfl
@[simp] theorem State.complete_dmem : (s.complete c).dmem = s.dmem := rfl
@[simp] theorem State.complete_draws : (s.complete c).draws = s.draws := rfl
@[simp] theorem State.complete_inbox : (s.complete c).inbox = s.inbox := rfl
@[simp] theorem State.complete_responses : (s.complete c).responses = s.responses := rfl
end

section
variable (a : Nat) (v : Byte)
@[simp] theorem memWrite_params : (memWrite a v s).params = s.params := rfl
@[simp] theorem memWrite_seq : (memWrite a v s).seq = s.seq := rfl
@[simp] theorem memWrite_irqEn : (memWrite a v s).irqEn = s.irqEn := rfl
@[simp] theorem memWrite_done : (memWrite a v s).done = s.done := rfl
@[simp] theorem memWrite_err : (memWrite a v s).err = s.err := rfl
@[simp] theorem memWrite_cmdLost : (memWrite a v s).cmdLost = s.cmdLost := rfl
@[simp] theorem memWrite_errcode : (memWrite a v s).errcode = s.errcode := rfl
@[simp] theorem memWrite_operands : (memWrite a v s).operands = s.operands := rfl
@[simp] theorem memWrite_result : (memWrite a v s).result = s.result := rfl
@[simp] theorem memWrite_engine : (memWrite a v s).engine = s.engine := rfl
@[simp] theorem memWrite_dmem : (memWrite a v s).dmem = s.dmem.store a v := rfl
@[simp] theorem memWrite_draws : (memWrite a v s).draws = s.draws := rfl
@[simp] theorem memWrite_inbox : (memWrite a v s).inbox = s.inbox := rfl
@[simp] theorem memWrite_responses : (memWrite a v s).responses = s.responses := rfl
end

@[simp] theorem State.applyReset_params : s.applyReset.params = s.params := rfl
@[simp] theorem State.applyReset_seq : s.applyReset.seq = State.reset.seq := rfl
@[simp] theorem State.applyReset_irqEn : s.applyReset.irqEn = State.reset.irqEn := rfl
@[simp] theorem State.applyReset_done : s.applyReset.done = State.reset.done := rfl
@[simp] theorem State.applyReset_err : s.applyReset.err = State.reset.err := rfl
@[simp] theorem State.applyReset_cmdLost : s.applyReset.cmdLost = State.reset.cmdLost := rfl
@[simp] theorem State.applyReset_errcode : s.applyReset.errcode = State.reset.errcode := rfl
@[simp] theorem State.applyReset_operands : s.applyReset.operands = State.reset.operands := rfl
@[simp] theorem State.applyReset_result : s.applyReset.result = State.reset.result := rfl
@[simp] theorem State.applyReset_engine : s.applyReset.engine = State.reset.engine := rfl
@[simp] theorem State.applyReset_dmem : s.applyReset.dmem = State.reset.dmem := rfl
@[simp] theorem State.applyReset_draws : s.applyReset.draws = s.draws := rfl
@[simp] theorem State.applyReset_inbox : s.applyReset.inbox = s.inbox := rfl
@[simp] theorem State.applyReset_responses : s.applyReset.responses = s.responses := rfl

/-- Two states with equal fields are equal. -/
theorem State.ext_fields {s t : State} (h1 : s.params = t.params) (h2 : s.seq = t.seq)
    (h3 : s.irqEn = t.irqEn) (h4 : s.done = t.done) (h5 : s.err = t.err) (h6 : s.cmdLost = t.cmdLost)
    (h7 : s.errcode = t.errcode) (h8 : s.operands = t.operands) (h9 : s.result = t.result)
    (h10 : s.engine = t.engine) (h11 : s.dmem = t.dmem) (h12 : s.draws = t.draws)
    (h13 : s.inbox = t.inbox) (h14 : s.responses = t.responses) : s = t := by
  cases s; cases t; simp_all

/-- BUSY is SEQ = BUSY (10_state.md R20). -/
theorem State.busy_iff {s : State} : s.busy = true ↔ ∃ w, s.seq = .busy w := by
  unfold State.busy; cases s.seq <;> simp

theorem State.not_busy_iff {s : State} : s.busy = false ↔ s.seq = .idle := by
  unfold State.busy; cases s.seq <;> simp

/-- BUSY depends on SEQ alone. -/
theorem State.busy_congr {s t : State} (h : s.seq = t.seq) : s.busy = t.busy := by
  unfold State.busy; rw [h]

end Sys2Proof.Machine
end

