-- ==== Sys2Proof/Laws/Memory.lean ====
section
/-! SUPPORT. DMEM: a read after a write, the canonical form, and what the byte reads and writes of commands and
of the bus can do (20_memory.md R54 to R56, 10_state.md R43). -/

namespace Sys2Proof.Machine

@[simp] theorem Memory.lookup_nil (a : Nat) : Memory.lookup a [] = none := rfl

theorem Memory.lookup_cons (a b : Nat) (v : Byte) (m : Memory) :
    Memory.lookup a ((b, v) :: m) = if a = b then some v else Memory.lookup a m := rfl

/-- A byte reads after each write: the value written at its address, the old one elsewhere. -/
theorem Memory.lookup_store (m : Memory) (a b : Nat) (v : Byte) :
    (m.store a v).lookup b = if b = a then some v else m.lookup b := by
  induction m with
  | nil => simp [Memory.store, Memory.lookup_cons]
  | cons c m ih =>
    obtain ⟨d, w⟩ := c
    simp only [Memory.store]
    split
    · simp [Memory.lookup_cons]
    · split
      · rename_i h
        subst h
        simp only [Memory.lookup_cons]
        split <;> rfl
      · rename_i h
        simp only [Memory.lookup_cons, ih]
        by_cases hb : b = d
        · subst hb
          simp [Ne.symm h]
        · simp [hb]

@[simp] theorem Memory.lookup_store_same (m : Memory) (a : Nat) (v : Byte) :
    (m.store a v).lookup a = some v := by simp [Memory.lookup_store]

theorem Memory.lookup_store_other (m : Memory) {a b : Nat} (v : Byte) (h : b ≠ a) :
    (m.store a v).lookup b = m.lookup b := by simp [Memory.lookup_store, h]

/-- A store adds no address but its own. -/
theorem Memory.mem_store {m : Memory} {a : Nat} {v : Byte} {c : Host.Cell} (h : c ∈ m.store a v) :
    c = (a, v) ∨ c ∈ m := by
  induction m with
  | nil => simpa [Memory.store] using h
  | cons d m ih =>
    obtain ⟨d, w⟩ := d
    simp only [Memory.store] at h
    split at h
    · simpa using h
    · split at h <;> simp only [List.mem_cons] at h ⊢ <;> tauto

/-- A store keeps the canonical form. -/
theorem Memory.store_wf {m : Memory} (h : m.wf) (a : Nat) (v : Byte) : Memory.wf (m.store a v) := by
  induction m with
  | nil => simp [Memory.store, Memory.wf]
  | cons d m ih =>
    obtain ⟨d, w⟩ := d
    obtain ⟨hd, hm⟩ := List.pairwise_cons.mp h
    simp only [Memory.store]
    split
    · rename_i hlt
      refine List.pairwise_cons.mpr ⟨fun c hc => ?_, h⟩
      rcases List.mem_cons.mp hc with rfl | hc
      · exact hlt
      · exact Nat.lt_trans hlt (hd c hc)
    · split
      · rename_i heq
        subst heq
        exact List.pairwise_cons.mpr ⟨hd, hm⟩
      · refine List.pairwise_cons.mpr ⟨fun c hc => ?_, ih hm⟩
        rcases Memory.mem_store hc with rfl | hc
        · simp only; omega
        · exact hd c hc

/-- A store below n keeps the memory below n. -/
theorem Memory.store_below {m : Memory} {n : Nat} (h : m.below n) {a : Nat} (v : Byte) (ha : a < n) :
    Memory.below (m.store a v) n := fun c hc => by
  rcases Memory.mem_store hc with rfl | hc
  · exact ha
  · exact h c hc

theorem Memory.holds_nil (m : Memory) (a : Nat) : m.holds a [] := fun k h => by simp at h

theorem Memory.holds_cons (m : Memory) (a : Nat) (b : Byte) (bs : List Byte) :
    m.holds a (b :: bs) ↔ m.lookup a = some b ∧ m.holds (a + 1) bs := by
  constructor
  · intro h
    refine ⟨by simpa using h 0 (by simp), fun k hk => ?_⟩
    have := h (k + 1) (by simpa using hk)
    simpa [Nat.add_assoc, Nat.add_comm 1] using this
  · rintro ⟨h0, h⟩ k hk
    cases k with
    | zero => simpa using h0
    | succ k =>
      have := h k (by simpa using hk)
      simpa [Nat.add_assoc, Nat.add_comm 1] using this

/-- A written byte reads as written, and nothing is drawn. -/
theorem memRead_written {a : Nat} {s : State} {b : Byte} (h : s.dmem.lookup a = some b) :
    memRead a s = (b, s) := by simp [memRead, h]

/-- An unwritten byte reads as the next free value (10_state.md R43). -/
theorem memRead_unwritten {a : Nat} {s : State} (h : s.dmem.lookup a = none) :
    memRead a s = (Config.freeByte s.draws, s.setDraws (s.draws + 1)) := by simp [memRead, h]

/-- A read changes nothing but the draw counter. -/
theorem memRead_state (a : Nat) (s : State) : ∃ n, s.draws ≤ n ∧ (memRead a s).2 = s.setDraws n := by
  cases h : s.dmem.lookup a with
  | some b => exact ⟨s.draws, Nat.le_refl _, by rw [memRead_written h]; rfl⟩
  | none => exact ⟨s.draws + 1, Nat.le_succ _, by rw [memRead_unwritten h]⟩

theorem setDraws_setDraws (s : State) (m n : Nat) : (s.setDraws m).setDraws n = s.setDraws n := rfl

theorem memReadBytes_state (n a : Nat) (s : State) :
    ∃ d, s.draws ≤ d ∧ (memReadBytes n a s).2 = s.setDraws d := by
  induction n generalizing a s with
  | zero => exact ⟨s.draws, Nat.le_refl _, rfl⟩
  | succ n ih =>
    obtain ⟨d, hd, h⟩ := memRead_state a s
    obtain ⟨e, he, h'⟩ := ih (a + 1) (memRead a s).2
    refine ⟨e, ?_, ?_⟩
    · rw [h] at he; exact Nat.le_trans hd he
    · simp only [memReadBytes]; rw [h', h]; rfl

@[simp] theorem memReadBytes_length (n a : Nat) (s : State) : (memReadBytes n a s).1.length = n := by
  induction n generalizing a s with
  | zero => rfl
  | succ n ih => simp [memReadBytes, ih]

/-- Written bytes read as written, and nothing is drawn. -/
theorem memReadBytes_written {s : State} {a : Nat} {bs : List Byte} (h : s.dmem.holds a bs) :
    memReadBytes bs.length a s = (bs, s) := by
  induction bs generalizing a with
  | nil => rfl
  | cons b bs ih =>
    obtain ⟨h0, h1⟩ := (Memory.holds_cons _ _ _ _).mp h
    simp only [List.length_cons, memReadBytes, memRead_written h0]
    rw [ih h1]

/-- Byte k of a multi-byte read is the written byte at its address, where there is one. -/
theorem memReadBytes_get {n a k : Nat} {s : State} (hk : k < n) {b : Byte} (h : s.dmem.lookup (a + k) = some b) :
    (memReadBytes n a s).1[k]? = some b := by
  induction n generalizing a s k with
  | zero => omega
  | succ n ih =>
    simp only [memReadBytes]
    cases k with
    | zero => simp [memRead_written (by simpa using h)]
    | succ k =>
      rw [List.getElem?_cons_succ]
      obtain ⟨d, _, hs⟩ := memRead_state a s
      refine ih (by omega) ?_
      rw [hs]
      simpa [Nat.add_assoc, Nat.add_comm 1] using h

/-- Little-endian packing as a number: the first byte plus 256 times the rest (20_memory.md R49). -/
theorem packLE_cons_toNat (b : Byte) (bs : List Byte) :
    (packLE (b :: bs)).toNat = (b.toNat + 256 * (packLE bs).toNat) % 2 ^ 32 := by
  simp only [packLE, BitVec.toNat_or, BitVec.toNat_shiftLeft, BitVec.toNat_setWidth, Nat.shiftLeft_eq]
  have hb := b.isLt
  rw [Nat.mod_eq_of_lt (show b.toNat < 2 ^ 32 by omega),
    show (packLE bs).toNat * 2 ^ 8 % 2 ^ 32 = 2 ^ 8 * ((packLE bs).toNat % 2 ^ 24) by omega,
    Nat.or_comm, ← Nat.two_pow_add_eq_or_of_lt hb]
  omega

/-- A multi-byte write changes DMEM only. -/
theorem memWriteBytes_state (n a : Nat) (w : Word) (s : State) :
    memWriteBytes n a w s = s.setDmem (memWriteBytes n a w s).dmem := by
  unfold memWriteBytes
  induction n with
  | zero => rfl
  | succ n ih => rw [loop_succ, ih]; rfl

/-- Each byte after a multi-byte write: the word's byte inside, the old one outside (20_memory.md R56). -/
theorem memWriteBytes_lookup (n a : Nat) (w : Word) (s : State) (b : Nat) :
    (memWriteBytes n a w s).dmem.lookup b =
      if a ≤ b ∧ b < a + n then some (byteOf w (b - a)) else s.dmem.lookup b := by
  unfold memWriteBytes
  induction n with
  | zero => rw [if_neg (by omega)]; rfl
  | succ n ih =>
    rw [loop_succ, memWrite_dmem, Memory.lookup_store]
    by_cases hb : b = a + n
    · subst hb; simp
    · rw [if_neg hb, ih]
      have : (a ≤ b ∧ b < a + (n + 1)) ↔ (a ≤ b ∧ b < a + n) := by omega
      simp only [this]

theorem memWriteBytes_wf {s : State} (h : s.dmem.wf) (n a : Nat) (w : Word) :
    Memory.wf (memWriteBytes n a w s).dmem := by
  unfold memWriteBytes
  exact loop_induct (fun _ (t : State) => Memory.wf t.dmem) h fun k t _ ht => Memory.store_wf ht _ _

theorem memWriteBytes_below {s : State} {m n a : Nat} (h : s.dmem.below m) (w : Word) (ha : a + n ≤ m) :
    Memory.below (memWriteBytes n a w s).dmem m := by
  unfold memWriteBytes
  exact loop_induct (fun _ (t : State) => Memory.below t.dmem m) h fun k t hk ht =>
    Memory.store_below ht _ (by omega)

end Sys2Proof.Machine
end

