-- ==== Sys2Proof/Laws/Cipher.lean ====
section
/-! SUPPORT. The cipher primitives (41_cipher.md R92 to R97): what a swap, a keystream step, the drop and the
key scheduling do, and that each keeps S a bijection (10_state.md R39). -/

namespace Sys2Proof.Machine

theorem Byte.toNat_inj_iff {a b : Byte} : a.toNat = b.toNat ↔ a = b := BitVec.toNat_inj

/-- Each entry after a swap (00_scope.md R9). -/
theorem sboxGet_swap (p : SBox) (a b k : Byte) :
    sboxGet (sboxSwap p a b) k =
      if k = a then sboxGet p b else if k = b then sboxGet p a else sboxGet p k := by
  simp only [sboxGet, sboxSwap, Vector.getElem_swap, Byte.toNat_inj_iff]

@[simp] theorem sboxGet_identity (k : Byte) : sboxGet identitySBox k = k := by
  simp [sboxGet, identitySBox]

/-- Two tables with equal entries are equal. -/
theorem SBox.ext_get {p q : SBox} (h : ∀ k, sboxGet p k = sboxGet q k) : p = q := by
  apply Vector.ext
  intro k hk
  have := h (BitVec.ofNat 8 k)
  simpa [sboxGet, Nat.mod_eq_of_lt hk] using this

/-- A swap of an entry with itself changes nothing (R95). -/
theorem sboxSwap_self (p : SBox) (a : Byte) : sboxSwap p a a = p :=
  SBox.ext_get fun k => by
    rw [sboxGet_swap]
    split
    · rename_i h; rw [h]
    · simp_all

theorem identity_bijective : Function.Bijective (sboxGet identitySBox) := by
  have : sboxGet identitySBox = id := funext sboxGet_identity
  rw [this]
  exact Function.bijective_id

/-- A swap keeps S a bijection. -/
theorem sboxSwap_bijective {p : SBox} (h : Function.Bijective (sboxGet p)) (a b : Byte) :
    Function.Bijective (sboxGet (sboxSwap p a b)) := by
  have : sboxGet (sboxSwap p a b) = sboxGet p ∘ Equiv.swap a b := by
    funext k
    rw [sboxGet_swap, Function.comp_apply, Equiv.swap_apply_def]
    split
    · rfl
    · split <;> rfl
  rw [this]
  exact h.comp (Equiv.swap a b).bijective

theorem ksa_bijective (key : List Byte) : Function.Bijective (sboxGet (ksa key)) := by
  unfold ksa
  exact loop_induct (fun _ (x : SBox × Byte) => Function.Bijective (sboxGet x.1)) identity_bijective
    fun _ _ _ h => sboxSwap_bijective h _ _

/-- A keystream step changes S, I and J alone (R94). -/
theorem prgaStep_state (e : Engine) :
    (prgaStep e).2 = { e with sbox := (prgaStep e).2.sbox, i := (prgaStep e).2.i, j := (prgaStep e).2.j } := rfl

@[simp] theorem prgaStep_keyed (e : Engine) : (prgaStep e).2.keyed = e.keyed := rfl
@[simp] theorem prgaStep_dropDone (e : Engine) : (prgaStep e).2.dropDone = e.dropDone := rfl
@[simp] theorem prgaStep_dropcfg (e : Engine) : (prgaStep e).2.dropcfg = e.dropcfg := rfl
@[simp] theorem prgaStep_dropped (e : Engine) : (prgaStep e).2.dropped = e.dropped := rfl

theorem prgaStep_bijective {e : Engine} (h : Function.Bijective (sboxGet e.sbox)) :
    Function.Bijective (sboxGet (prgaStep e).2.sbox) := sboxSwap_bijective h _ _

@[simp] theorem Engine.after_zero (e : Engine) : e.after 0 = e := rfl

theorem Engine.after_succ (e : Engine) (n : Nat) : e.after (n + 1) = (prgaStep (e.after n)).2 := rfl

theorem Engine.after_add (e : Engine) (m n : Nat) : e.after (m + n) = (e.after m).after n := loop_add _ m n e

/-- Later keystream bytes are the keystream of the engine after the earlier ones (R97). -/
theorem Engine.keystream_add (e : Engine) (m n : Nat) : e.keystream (m + n) = (e.after m).keystream n := by
  unfold Engine.keystream
  rw [Engine.after_add]

@[simp] theorem Engine.after_keyed (e : Engine) (n : Nat) : (e.after n).keyed = e.keyed :=
  loop_keeps (f := fun _ x => (prgaStep x).2) (fun x : Engine => x.keyed) (fun _ _ => rfl) n e
@[simp] theorem Engine.after_dropDone (e : Engine) (n : Nat) : (e.after n).dropDone = e.dropDone :=
  loop_keeps (f := fun _ x => (prgaStep x).2) (fun x : Engine => x.dropDone) (fun _ _ => rfl) n e
@[simp] theorem Engine.after_dropcfg (e : Engine) (n : Nat) : (e.after n).dropcfg = e.dropcfg :=
  loop_keeps (f := fun _ x => (prgaStep x).2) (fun x : Engine => x.dropcfg) (fun _ _ => rfl) n e
@[simp] theorem Engine.after_dropped (e : Engine) (n : Nat) : (e.after n).dropped = e.dropped :=
  loop_keeps (f := fun _ x => (prgaStep x).2) (fun x : Engine => x.dropped) (fun _ _ => rfl) n e

theorem Engine.after_bijective {e : Engine} (h : Function.Bijective (sboxGet e.sbox)) (n : Nat) :
    Function.Bijective (sboxGet (e.after n).sbox) :=
  loop_induct (fun _ (x : Engine) => Function.Bijective (sboxGet x.sbox)) h fun _ _ _ hx => prgaStep_bijective hx

/-- n discarded steps advance the engine n steps and count them in DROPPED (R96). -/
theorem dropLoop_eq (e : Engine) (n : Nat) :
    loop (fun _ => dropStep) n e = { e.after n with dropped := e.dropped + BitVec.ofNat 32 n } := by
  induction n with
  | zero => simp
  | succ n ih =>
    rw [loop_succ, ih]
    have : e.dropped + BitVec.ofNat 32 n + 1 = e.dropped + BitVec.ofNat 32 (n + 1) := by
      rw [BitVec.ofNat_add, BitVec.add_assoc]
      rfl
    simp only [dropStep, Engine.after_succ]
    rw [← this]
    rfl

theorem doDrop_done {e : Engine} (h : e.dropDone = true) : doDrop e = e := by simp [doDrop, h]

/-- The pending drop: DROPCFG steps, all counted (R96). -/
theorem doDrop_pending {e : Engine} (h : e.dropDone = false) :
    doDrop e = { e.after e.dropcfg.toNat with dropped := e.dropped + e.dropcfg, dropDone := true } := by
  simp [doDrop, h, dropLoop_eq]

@[simp] theorem doDrop_dropDone (e : Engine) : (doDrop e).dropDone = true := by
  cases h : e.dropDone
  · rw [doDrop_pending h]
  · rw [doDrop_done h, h]

@[simp] theorem doDrop_keyed (e : Engine) : (doDrop e).keyed = e.keyed := by
  cases h : e.dropDone
  · rw [doDrop_pending h]; simp
  · rw [doDrop_done h]

@[simp] theorem doDrop_dropcfg (e : Engine) : (doDrop e).dropcfg = e.dropcfg := by
  cases h : e.dropDone
  · rw [doDrop_pending h]; simp
  · rw [doDrop_done h]

theorem doDrop_bijective {e : Engine} (h : Function.Bijective (sboxGet e.sbox)) :
    Function.Bijective (sboxGet (doDrop e).sbox) := by
  cases hd : e.dropDone
  · rw [doDrop_pending hd]; exact Engine.after_bijective h _
  · rwa [doDrop_done hd]

end Sys2Proof.Machine
end

