-- ==== Sys2Proof/Laws/Command.lean ====
section
/-! SUPPORT. What the shared completion and the four byte loops of the commands can do
(40_command_cycle.md R87, R88; 41_cipher.md R102, R104; 42_bitops.md R109, R112). -/

namespace Sys2Proof.Machine

/-- A command whose check fails ends at once (40_command_cycle.md R88). -/
theorem runCommand_fail {i : Instr} {s : State} (body : State → State) (h : check i s ≠ .none) :
    runCommand i body s = s.complete (check i s) := by simp [runCommand, h]

/-- A command whose check passes runs its body (40_command_cycle.md R87). -/
theorem runCommand_pass {i : Instr} {s : State} (body : State → State) (h : check i s = .none) :
    runCommand i body s = (body s).complete .none := by simp [runCommand, h]

/-- What no command body touches: everything but RESULT, the engine, DMEM and the draw counter. -/
def State.control (s : State) :
    Params × Seq × Bool × Bool × Bool × Bool × ErrCode × Operands × List Event × List Response :=
  (s.params, s.seq, s.irqEn, s.done, s.err, s.cmdLost, s.errcode, s.operands, s.inbox, s.responses)

/-- Equal control parts, field by field. -/
theorem State.control_eq {s t : State} (h : s.control = t.control) :
    s.params = t.params ∧ s.seq = t.seq ∧ s.irqEn = t.irqEn ∧ s.done = t.done ∧ s.err = t.err ∧
      s.cmdLost = t.cmdLost ∧ s.errcode = t.errcode ∧ s.operands = t.operands ∧ s.inbox = t.inbox ∧
      s.responses = t.responses := by
  simpa [State.control] using h

theorem memRead_keeps (a : Nat) (s : State) :
    (memRead a s).2.control = s.control ∧ (memRead a s).2.result = s.result ∧
      (memRead a s).2.engine = s.engine ∧ (memRead a s).2.dmem = s.dmem := by
  obtain ⟨n, _, h⟩ := memRead_state a s
  rw [h]
  exact ⟨rfl, rfl, rfl, rfl⟩

theorem memReadBytes_keeps (n a : Nat) (s : State) :
    (memReadBytes n a s).2.control = s.control ∧ (memReadBytes n a s).2.result = s.result ∧
      (memReadBytes n a s).2.engine = s.engine ∧ (memReadBytes n a s).2.dmem = s.dmem := by
  obtain ⟨d, _, h⟩ := memReadBytes_state n a s
  rw [h]
  exact ⟨rfl, rfl, rfl, rfl⟩

/-- INIT's body makes an engine from a key that has the written bytes of its region, and changes no more. -/
theorem initBody_spec (s : State) :
    ∃ key d, s.draws ≤ d ∧ key = (memReadBytes s.operands.lenA.toNat s.operands.srcA.toNat s).1 ∧
      initBody s = (s.setEngine (newEngine key s.operands.drop)).setDraws d := by
  obtain ⟨d, hd, h⟩ := memReadBytes_state s.operands.lenA.toNat s.operands.srcA.toNat s
  exact ⟨_, d, hd, rfl, by simp only [initBody]; rw [h]; rfl⟩

/-- After n iterations of GEN's loop: n keystream bytes from `dst` up, all else as before. -/
theorem genLoop_spec (dst n : Nat) (s : State) :
    (loop (genByte dst) n s).control = s.control ∧ (loop (genByte dst) n s).result = s.result ∧
      (loop (genByte dst) n s).draws = s.draws ∧ (loop (genByte dst) n s).engine = s.engine.after n ∧
      (∀ k, k < n → (loop (genByte dst) n s).dmem.lookup (dst + k) = some (s.engine.keystream k)) ∧
      ∀ b, b < dst ∨ dst + n ≤ b → (loop (genByte dst) n s).dmem.lookup b = s.dmem.lookup b := by
  induction n with
  | zero => exact ⟨rfl, rfl, rfl, rfl, fun k hk => by omega, fun _ _ => rfl⟩
  | succ n ih =>
    obtain ⟨h1, h2, h3, h4, h5, h6⟩ := ih
    refine ⟨h1, h2, h3, ?_, fun k hk => ?_, fun b hb => ?_⟩
    · rw [loop_succ]; simp only [genByte, memWrite_engine, State.setEngine_engine]; rw [h4]; rfl
    · rw [loop_succ]
      simp only [genByte, memWrite_dmem, State.setEngine_dmem]
      rcases Nat.lt_succ_iff_lt_or_eq.mp hk with hk | rfl
      · rw [Memory.lookup_store_other _ _ (by omega), h5 k hk]
      · rw [Memory.lookup_store_same, h4]; rfl
    · rw [loop_succ]
      simp only [genByte, memWrite_dmem, State.setEngine_dmem]
      rw [Memory.lookup_store_other _ _ (by omega), h6 b (by omega)]

/-- One iteration of CRYPT. -/
theorem cryptByte_spec (src dst k : Nat) (s : State) :
    (cryptByte src dst k s).control = s.control ∧ (cryptByte src dst k s).result = s.result ∧
      s.draws ≤ (cryptByte src dst k s).draws ∧ (cryptByte src dst k s).engine = (prgaStep s.engine).2 ∧
      ∃ b, (∀ v, s.dmem.lookup (src + k) = some v → b = v) ∧
        (cryptByte src dst k s).dmem = s.dmem.store (dst + k) (b ^^^ (prgaStep s.engine).1) := by
  obtain ⟨d, hd, h⟩ := memRead_state (src + k) (s.setEngine (prgaStep s.engine).2)
  refine ⟨?_, ?_, ?_, ?_, (memRead (src + k) (s.setEngine (prgaStep s.engine).2)).1, ?_, ?_⟩
  · simp only [cryptByte]; rw [h]; rfl
  · simp only [cryptByte]; rw [h]; rfl
  · simp only [cryptByte, memWrite_draws]; rw [h]; exact hd
  · simp only [cryptByte, memWrite_engine]; rw [h]; rfl
  · intro v hv
    rw [memRead_written (s := s.setEngine (prgaStep s.engine).2) hv]
  · simp only [cryptByte, memWrite_dmem]; rw [h]; rfl

/-- One iteration of FLIP. -/
theorem flipByte_spec (src dst b k : Nat) (s : State) :
    (flipByte src dst b k s).control = s.control ∧ (flipByte src dst b k s).result = s.result ∧
      s.draws ≤ (flipByte src dst b k s).draws ∧ (flipByte src dst b k s).engine = s.engine ∧
      ∃ x, (∀ v, s.dmem.lookup (src + k) = some v → x = v) ∧
        (flipByte src dst b k s).dmem = s.dmem.store (dst + k) (flipByteValue b k x) := by
  obtain ⟨d, hd, h⟩ := memRead_state (src + k) s
  refine ⟨?_, ?_, ?_, ?_, (memRead (src + k) s).1, ?_, ?_⟩
  · simp only [flipByte]; rw [h]; rfl
  · simp only [flipByte]; rw [h]; rfl
  · simp only [flipByte, memWrite_draws]; rw [h]; exact hd
  · simp only [flipByte, memWrite_engine]; rw [h]; rfl
  · intro v hv; rw [memRead_written hv]
  · simp only [flipByte, memWrite_dmem]; rw [h]; rfl

/-- A loop that reads `src + k` and writes a function of what it read to `dst + k`, for k ascending: bytes
outside the output stay; every byte of the output is written; output byte k is the function of the byte
that stood at `src + k` before the loop, where no earlier iteration wrote there, and of the byte an earlier
iteration wrote there otherwise (41_cipher.md R105, 42_bitops.md R110). -/
theorem copyLoop_spec {f : Nat → State → State} {g : Nat → Byte → Byte} {src dst n : Nat} {s : State}
    (h : ∀ k, k < n → ∃ x, (∀ v, (loop f k s).dmem.lookup (src + k) = some v → x = v) ∧
      (f k (loop f k s)).dmem = (loop f k s).dmem.store (dst + k) (g k x)) :
    (∀ b, b < dst ∨ dst + n ≤ b → (loop f n s).dmem.lookup b = s.dmem.lookup b) ∧
    (∀ k, k < n → (loop f n s).dmem.lookup (dst + k) ≠ none) ∧
    (∀ k b, k < n → src + k < dst ∨ dst ≤ src → s.dmem.lookup (src + k) = some b →
      (loop f n s).dmem.lookup (dst + k) = some (g k b)) ∧
    (∀ k j c, k < n → j < k → src + k = dst + j → (loop f n s).dmem.lookup (dst + j) = some c →
      (loop f n s).dmem.lookup (dst + k) = some (g k c)) := by
  induction n with
  | zero => exact ⟨fun _ _ => rfl, fun _ h => by omega, fun _ _ h => by omega, fun _ _ _ h => by omega⟩
  | succ n ih =>
    obtain ⟨out, written, fresh, again⟩ := ih fun k hk => h k (by omega)
    obtain ⟨x, hx, hm⟩ := h n (Nat.lt_succ_self n)
    simp only [loop_succ, hm]
    refine ⟨fun b hb => ?_, fun k hk => ?_, fun k b hk hs hb => ?_, fun k j c hk hj hs hc => ?_⟩
    · rw [Memory.lookup_store_other _ _ (by omega), out b (by omega)]
    · by_cases hkn : k = n
      · subst hkn; simp
      · rw [Memory.lookup_store_other _ _ (by omega)]
        exact written k (by omega)
    · by_cases hkn : k = n
      · subst hkn
        rw [Memory.lookup_store_same, hx b]
        rwa [out _ (by omega)]
      · rw [Memory.lookup_store_other _ _ (by omega)]
        exact fresh k b (by omega) hs hb
    · rw [Memory.lookup_store_other _ _ (by omega)] at hc
      by_cases hkn : k = n
      · subst hkn
        rw [Memory.lookup_store_same, hx c]
        rwa [hs]
      · rw [Memory.lookup_store_other _ _ (by omega)]
        exact again k j c (by omega) hj hs hc

/-- CRYPT's loop advances the engine one step a byte (41_cipher.md R104). -/
theorem cryptLoop_engine (src dst n : Nat) (s : State) :
    (loop (cryptByte src dst) n s).engine = s.engine.after n := by
  induction n with
  | zero => rfl
  | succ n ih => rw [loop_succ, (cryptByte_spec _ _ _ _).2.2.2.1, ih]; rfl

/-- CRYPT's loop, byte by byte (41_cipher.md R104, R105). -/
theorem cryptLoop_spec (src dst n : Nat) (s : State) :
    (∀ b, b < dst ∨ dst + n ≤ b → (loop (cryptByte src dst) n s).dmem.lookup b = s.dmem.lookup b) ∧
    (∀ k, k < n → (loop (cryptByte src dst) n s).dmem.lookup (dst + k) ≠ none) ∧
    (∀ k b, k < n → src + k < dst ∨ dst ≤ src → s.dmem.lookup (src + k) = some b →
      (loop (cryptByte src dst) n s).dmem.lookup (dst + k) = some (b ^^^ s.engine.keystream k)) ∧
    (∀ k j c, k < n → j < k → src + k = dst + j →
      (loop (cryptByte src dst) n s).dmem.lookup (dst + j) = some c →
      (loop (cryptByte src dst) n s).dmem.lookup (dst + k) = some (c ^^^ s.engine.keystream k)) := by
  refine copyLoop_spec (g := fun k b => b ^^^ s.engine.keystream k) fun k _ => ?_
  obtain ⟨_, _, _, _, b, hb, hm⟩ := cryptByte_spec src dst k (loop (cryptByte src dst) k s)
  refine ⟨b, hb, ?_⟩
  rw [hm, cryptLoop_engine]
  rfl

/-- FLIP's loop, byte by byte (42_bitops.md R109, R110). -/
theorem flipLoop_spec (src dst i n : Nat) (s : State) :
    (∀ b, b < dst ∨ dst + n ≤ b → (loop (flipByte src dst i) n s).dmem.lookup b = s.dmem.lookup b) ∧
    (∀ k, k < n → (loop (flipByte src dst i) n s).dmem.lookup (dst + k) ≠ none) ∧
    (∀ k b, k < n → src + k < dst ∨ dst ≤ src → s.dmem.lookup (src + k) = some b →
      (loop (flipByte src dst i) n s).dmem.lookup (dst + k) = some (flipByteValue i k b)) ∧
    (∀ k j c, k < n → j < k → src + k = dst + j →
      (loop (flipByte src dst i) n s).dmem.lookup (dst + j) = some c →
      (loop (flipByte src dst i) n s).dmem.lookup (dst + k) = some (flipByteValue i k c)) := by
  refine copyLoop_spec fun k _ => ?_
  obtain ⟨_, _, _, _, b, hb, hm⟩ := flipByte_spec src dst i k (loop (flipByte src dst i) k s)
  exact ⟨b, hb, hm⟩

/-- HAMM's loop changes the state's draw counter alone. -/
theorem hammLoop_state (a b n d : Nat) (s : State) :
    ∃ c, s.draws ≤ c ∧ (loop (hammByte a b) n (d, s)).2 = s.setDraws c := by
  induction n with
  | zero => exact ⟨s.draws, Nat.le_refl _, rfl⟩
  | succ n ih =>
    obtain ⟨c, hc, h⟩ := ih
    obtain ⟨c1, hc1, h1⟩ := memRead_state (a + n) (loop (hammByte a b) n (d, s)).2
    obtain ⟨c2, hc2, h2⟩ := memRead_state (b + n) (memRead (a + n) (loop (hammByte a b) n (d, s)).2).2
    refine ⟨c2, ?_, ?_⟩
    · rw [h1] at hc2; rw [h] at hc1; exact Nat.le_trans hc (Nat.le_trans hc1 hc2)
    · rw [loop_succ]; simp only [hammByte]; rw [h2, h1, h]; rfl

theorem popcount_le (b : Byte) : popcount b ≤ 8 := by
  have := List.countP_le_length (p := fun n => b.getLsbD n) (l := List.range 8)
  simpa [popcount] using this

@[simp] theorem popcount_zero : popcount 0#8 = 0 := by decide

/-- HAMM's distance after n iterations is at most 8n (42_bitops.md R113(d)). -/
theorem hammLoop_le (a b n : Nat) (s : State) : (loop (hammByte a b) n (0, s)).1 ≤ 8 * n := by
  induction n with
  | zero => exact Nat.le_refl _
  | succ n ih =>
    rw [loop_succ]
    simp only [hammByte]
    have := popcount_le ((memRead (a + n) (loop (hammByte a b) n (0, s)).2).1 ^^^
      (memRead (b + n) (memRead (a + n) (loop (hammByte a b) n (0, s)).2).2).1)
    omega

/-- The 1 bits of an XOR are the differing bits. -/
theorem popcount_xor (x y : Byte) :
    popcount (x ^^^ y) = (List.range 8).countP fun n => x.getLsbD n != y.getLsbD n := by
  simp [popcount, BitVec.getLsbD_xor]

@[simp] theorem differingBits_zero (xs ys : List Byte) : differingBits xs ys 0 = 0 := rfl

/-- One more element adds the 1 bits of its XOR. -/
theorem differingBits_succ (xs ys : List Byte) (n : Nat) :
    differingBits xs ys (n + 1) = differingBits xs ys n + popcount (xs.getD n 0 ^^^ ys.getD n 0) := by
  rw [popcount_xor]
  simp only [differingBits, SProd.sprod, List.product, List.range_succ (n := n), List.flatMap_append, List.countP_append,
    List.flatMap_cons, List.flatMap_nil, List.append_nil, List.countP_map]
  rfl

/-- On written buffers HAMM's loop counts the differing bits and draws nothing. -/
theorem hammLoop_written {s : State} {a b : Nat} {xs ys : List Byte} (hx : s.dmem.holds a xs)
    (hy : s.dmem.holds b ys) {n : Nat} (hn : n ≤ min xs.length ys.length) :
    loop (hammByte a b) n (0, s) = (differingBits xs ys n, s) := by
  induction n with
  | zero => rfl
  | succ n ih =>
    have hxn : n < xs.length := by omega
    have hyn : n < ys.length := by omega
    rw [loop_succ, ih (by omega)]
    have h1 := hx n hxn
    have h2 := hy n hyn
    rw [List.getElem?_eq_getElem hxn] at h1
    rw [List.getElem?_eq_getElem hyn] at h2
    simp [hammByte, memRead_written h1, memRead_written h2, differingBits_succ, hxn, hyn]

end Sys2Proof.Machine
end

