-- ==== Sys2Proof/Laws/Bus.lean ====
section
/-! SUPPORT. What one host transaction can do (20_memory.md R46, R53, R57, R58, R62 to R64). -/

namespace Sys2Proof.Machine

/-- A data read changes nothing but the draw counter (20_memory.md R58). -/
theorem busRead_state (off : Nat) (z : Size) (s : State) :
    ∃ d, s.draws ≤ d ∧ (busRead off z s).2 = s.setDraws d := by
  unfold busRead
  split
  · exact ⟨_, Nat.le_succ _, rfl⟩
  · split
    · exact ⟨s.draws, Nat.le_refl _, rfl⟩
    · exact ⟨s.draws, Nat.le_refl _, rfl⟩
    · exact ⟨s.draws, Nat.le_refl _, rfl⟩
    · exact memReadBytes_state _ _ _

/-- A write of a register touches CTRL, the W1C flags, SEQ at an issue, or an operand register. -/
theorem writeReg_keeps (r : Reg) (w : Word) (s : State) :
    (writeReg r w s).params = s.params ∧ (writeReg r w s).errcode = s.errcode ∧
      (writeReg r w s).result = s.result ∧ (writeReg r w s).engine = s.engine ∧
      (writeReg r w s).dmem = s.dmem ∧ (writeReg r w s).draws = s.draws ∧
      (writeReg r w s).inbox = s.inbox ∧ (writeReg r w s).responses = s.responses := by
  cases r <;> simp only [writeReg, writeCtrl, writeStatus, writeCmd] <;> (try split) <;> simp

/-- A legal write touches no more of the state than a register write does, but for DMEM. -/
theorem busWrite_keeps (off : Nat) (z : Size) (w : Word) (s : State) :
    (busWrite off z w s).params = s.params ∧ (busWrite off z w s).errcode = s.errcode ∧
      (busWrite off z w s).result = s.result ∧ (busWrite off z w s).engine = s.engine ∧
      (busWrite off z w s).draws = s.draws ∧ (busWrite off z w s).inbox = s.inbox ∧
      (busWrite off z w s).responses = s.responses := by
  unfold busWrite
  split
  · obtain ⟨h1, h2, h3, h4, _, h6, h7, h8⟩ := writeReg_keeps ‹Reg› w s
    exact ⟨h1, h2, h3, h4, h6, h7, h8⟩
  · simp
  · simp
  · split
    · simp
    · rw [memWriteBytes_state]; simp

/-- Every transaction is one of four: not decoded, a bus error, a write, a read. -/
theorem access_cases (t : Txn) (s : State) :
    (windowOffset s.params t.addr = none ∧ access t s = s) ∨
    ∃ off, windowOffset s.params t.addr = some off ∧
      ((isBusError off t.size = true ∧ access t s = s.respond .busError) ∨
       (isBusError off t.size = false ∧ t.write = true ∧
          access t s = (busWrite off t.size t.wdata s).respond .writeAck) ∨
       (isBusError off t.size = false ∧ t.write = false ∧
          ∃ d, s.draws ≤ d ∧
            access t s = (s.setDraws d).respond (.readData (busRead off t.size s).1))) := by
  unfold access
  cases hw : windowOffset s.params t.addr with
  | none => exact .inl ⟨rfl, rfl⟩
  | some off =>
    refine .inr ⟨off, rfl, ?_⟩
    cases hb : isBusError off t.size with
    | true => simp [hb]
    | false =>
      cases ht : t.write with
      | true => simp [hb]
      | false =>
        obtain ⟨d, hd, h⟩ := busRead_state off t.size s
        refine .inr (.inr ⟨rfl, rfl, d, hd, ?_⟩)
        simp [hb, h]

/-- No transaction changes the parameters, ERRCODE, RESULT, the engine or the events to come. -/
theorem access_keeps (t : Txn) (s : State) :
    (access t s).params = s.params ∧ (access t s).errcode = s.errcode ∧ (access t s).result = s.result ∧
      (access t s).engine = s.engine ∧ (access t s).inbox = s.inbox := by
  rcases access_cases t s with ⟨_, h⟩ | ⟨off, _, ⟨_, h⟩ | ⟨_, _, h⟩ | ⟨_, _, d, _, h⟩⟩ <;> rw [h]
  · simp
  · simp
  · obtain ⟨h1, h2, h3, h4, _, h6, _⟩ := busWrite_keeps off t.size t.wdata s
    simp [h1, h2, h3, h4, h6]
  · simp

/-- An offset the block decodes lies in the window. -/
theorem windowOffset_lt {p : Params} {addr off : Nat} (h : windowOffset p addr = some off) :
    off < p.windowSize := by
  unfold windowOffset at h
  split at h
  · cases h; omega
  · cases h

/-- The address of an offset of the window decodes to it. -/
theorem windowOffset_base {p : Params} {off : Nat} (h : off < p.windowSize) :
    windowOffset p (p.base + off) = some off := by
  unfold windowOffset
  rw [if_pos (by omega)]
  simp

end Sys2Proof.Machine
end

