-- ==== Sys2Proof/Laws/Step.lean ====
section
/-! SUPPORT. What one step can do (40_command_cycle.md R80, R87; 20_memory.md R65). -/

namespace Sys2Proof.Machine

/-- The body of each command. -/
def bodyOf (i : Instr) : State → State :=
  match i with
  | .init => initBody
  | .gen => genBody
  | .crypt => cryptBody
  | .flip => flipBody
  | .hamm => hammBody

/-- Each meaning is the shared completion with the command's own body. -/
theorem exec_eq (i : Instr) (s : State) : exec i s = .next (runCommand i (bodyOf i) s) := by
  cases i <;> rfl

/-- The sequencer's move: nothing while IDLE, a completion while BUSY. -/
theorem sequencerMove_cases (s : State) :
    (s.seq = .idle ∧ sequencerMove s = .next s) ∨
    (∃ w i, s.seq = .busy w ∧ decode w = .ok i ∧ sequencerMove s = .next (runCommand i (bodyOf i) s)) ∨
    (∃ w e, s.seq = .busy w ∧ decode w = .error e ∧ sequencerMove s = .next (s.complete .illegalCmd)) := by
  unfold sequencerMove
  cases hq : s.seq with
  | idle => exact .inl ⟨rfl, rfl⟩
  | busy w =>
    cases hd : decode w with
    | ok i => exact .inr (.inl ⟨w, i, rfl, hd, by simp [hd, exec_eq]⟩)
    | error e => exact .inr (.inr ⟨w, e, rfl, hd, by simp [hd]⟩)

/-- The sequencer always answers a next state. -/
theorem sequencerMove_next (s : State) : ∃ t, sequencerMove s = .next t := by
  rcases sequencerMove_cases s with ⟨_, h⟩ | ⟨_, _, _, _, h⟩ | ⟨_, _, _, _, h⟩ <;> exact ⟨_, h⟩

theorem step_nil {s : State} (h : s.inbox = []) : step s = sequencerMove s := by simp [step, h]

theorem step_cons {s : State} {e : Event} {rest : List Event} (h : s.inbox = e :: rest) :
    step s = handleEvent e (s.setInbox rest) := by simp [step, h]

/-- A transaction presented during reset leaves the state but for draws and responses. -/
theorem resetEdge_state (o : Option Txn) (s : State) :
    ∃ d rs, resetEdge o s = { s.applyReset with draws := d, responses := rs } := by
  cases o with
  | none => exact ⟨s.draws, s.responses, rfl⟩
  | some t =>
    simp only [resetEdge, accessInReset]
    split
    · exact ⟨s.draws, s.responses, rfl⟩
    · exact ⟨_, _, rfl⟩

/-- Every next state of a step: the sequencer's move, a host transaction, or a reset edge. -/
theorem step_cases {s t : State} (h : step s = .next t) :
    (∃ rest, (s.inbox = [] ∧ rest = [] ∨ s.inbox = .complete :: rest) ∧
      sequencerMove (s.setInbox rest) = .next t) ∨
    (∃ x rest, s.inbox = .txn x :: rest ∧ t = access x (s.setInbox rest)) ∨
    (∃ o rest, s.inbox = .rst o :: rest ∧ t = resetEdge o (s.setInbox rest)) := by
  cases hi : s.inbox with
  | nil =>
    rw [step_nil hi] at h
    refine .inl ⟨[], .inl ⟨rfl, rfl⟩, ?_⟩
    rwa [show s.setInbox [] = s by rw [← hi]; rfl]
  | cons e rest =>
    rw [step_cons hi] at h
    cases e with
    | txn x => exact .inr (.inl ⟨x, rest, rfl, by simpa [handleEvent] using h.symm⟩)
    | complete => exact .inl ⟨rest, .inr rfl, h⟩
    | rst o => exact .inr (.inr ⟨o, rest, rfl, by simpa [handleEvent] using h.symm⟩)
    | rstMidTxn x => simp [handleEvent] at h

end Sys2Proof.Machine
end

