-- ==== Sys2Proof/Laws/Launch.lean ====
section
/-! SUPPORT. What a run of events can do (70_reset_and_hazards.md R149, R150): transactions by what they access,
events, runs; and that a command on written inputs is a function of the parameters, the operands, the cipher
instance, DMEM and RESULT. -/

namespace Sys2Proof.Machine

/-! ## Commands on written inputs -/

/-- What the body of a command may read or write, the draw counter apart. -/
def State.core (s : State) : Params × Operands × Engine × Memory × Word :=
  (s.params, s.operands, s.engine, s.dmem, s.result)

/-- Equal cores, field by field. -/
theorem State.core_eq_iff {s t : State} : s.core = t.core ↔ s.params = t.params ∧ s.operands = t.operands ∧
    s.engine = t.engine ∧ s.dmem = t.dmem ∧ s.result = t.result := by simp [State.core]

/-- A state is its core, its control part and its draw counter. -/
theorem State.ext_core {s t : State} (h : s.core = t.core) (hc : s.control = t.control) (hd : s.draws = t.draws) :
    s = t := by
  obtain ⟨h1, h2, h3, h4, h5⟩ := State.core_eq_iff.mp h
  obtain ⟨c1, c2, c3, c4, c5, c6, c7, c8, c9, c10⟩ := State.control_eq hc
  cases s; cases t; simp_all

theorem check_congr (i : Instr) {s t : State} (h : s.core = t.core) : check i s = check i t := by
  obtain ⟨h1, h2, h3, _, _⟩ := State.core_eq_iff.mp h
  simp [check, h1, h2, h3]

theorem inputsWritten_congr (i : Instr) {s t : State} (h : s.core = t.core) :
    inputsWritten i s ↔ inputsWritten i t := by
  obtain ⟨_, h2, _, h4, _⟩ := State.core_eq_iff.mp h
  simp only [inputsWritten, h2, h4]

/-- A read of a written byte gives what DMEM holds, and leaves the state alone. -/
theorem memRead_congr {a : Nat} {s t : State} (h : s.dmem.lookup a ≠ none) (hc : s.dmem = t.dmem) :
    (memRead a s).1 = (memRead a t).1 ∧ (memRead a s).2 = s ∧ (memRead a t).2 = t := by
  obtain ⟨v, hv⟩ := Option.ne_none_iff_exists'.mp h
  rw [memRead_written hv, memRead_written (s := t) (by rw [← hc]; exact hv)]
  exact ⟨rfl, rfl, rfl⟩

theorem memReadBytes_congr {n a : Nat} {s t : State} (h : ∀ k < n, s.dmem.lookup (a + k) ≠ none)
    (hc : s.dmem = t.dmem) :
    (memReadBytes n a s).1 = (memReadBytes n a t).1 ∧ (memReadBytes n a s).2 = s ∧
      (memReadBytes n a t).2 = t := by
  induction n generalizing a with
  | zero => exact ⟨rfl, rfl, rfl⟩
  | succ n ih =>
    obtain ⟨m1, m2, m3⟩ := memRead_congr (by simpa using h 0 (by omega)) hc
    obtain ⟨i1, i2, i3⟩ := ih (a := a + 1) fun k hk => by
      have := h (k + 1) (by omega)
      rwa [show a + (k + 1) = a + 1 + k by omega] at this
    simp [memReadBytes, m2, m3, m1, i1, i2, i3]

/-- A store unwrites nothing. -/
theorem Memory.store_keeps_written {m : Memory} {a x : Nat} {v : Byte} (h : m.lookup x ≠ none) :
    (m.store a v).lookup x ≠ none := by
  rw [Memory.lookup_store]
  split
  · simp
  · exact h

/-- A copying loop of two states with equal cores, on written bytes: the cores stay equal, nothing is drawn. -/
theorem copyLoop_congr {f : Nat → State → State} {src n : Nat} {s t : State} (h : s.core = t.core)
    (hw : ∀ k < n, s.dmem.lookup (src + k) ≠ none)
    (hf : ∀ (k : Nat) (a b : State), a.core = b.core → a.dmem.lookup (src + k) ≠ none →
      (f k a).core = (f k b).core ∧ (f k a).draws = a.draws ∧ ∃ x v, (f k a).dmem = a.dmem.store x v) :
    (loop f n s).core = (loop f n t).core ∧ (loop f n s).draws = s.draws := by
  have := loop_rel (f := f) (g := f) (n := n) (x := s) (y := t) (fun a b => a.core = b.core ∧ a.draws = s.draws ∧
    ∀ x, s.dmem.lookup x ≠ none → a.dmem.lookup x ≠ none) ⟨h, rfl, fun _ h => h⟩ fun k a b hk ⟨hab, hd, hx⟩ => by
      obtain ⟨c, d, x, v, e⟩ := hf k a b hab (hx _ (hw k hk))
      exact ⟨c, d.trans hd, fun y hy => by rw [e]; exact Memory.store_keeps_written (hx y hy)⟩
  exact ⟨this.1, this.2.1⟩

/-- The body of a command whose inputs are written depends on the core alone, and draws nothing
(10_state.md R43). -/
theorem body_congr (i : Instr) {s t : State} (h : s.core = t.core) (hw : inputsWritten i s) :
    (bodyOf i s).core = (bodyOf i t).core ∧ (bodyOf i s).draws = s.draws := by
  obtain ⟨h1, h2, h3, h4, h5⟩ := State.core_eq_iff.mp h
  cases i with
  | init =>
    obtain ⟨r1, r2, r3⟩ := memReadBytes_congr (t := t)
      (hw (s.operands.srcA.toNat, s.operands.lenA.toNat) (by simp [inputRegions])) h4
    simp only [bodyOf, initBody, ← h2, r2, r3, r1]
    exact ⟨State.core_eq_iff.mpr ⟨h1, h2, rfl, h4, h5⟩, rfl⟩
  | gen =>
    refine ⟨?_, (genLoop_spec _ _ _).2.2.1⟩
    simp only [bodyOf, genBody, ← h2]
    refine loop_rel (fun a b : State => a.core = b.core)
      (State.core_eq_iff.mpr ⟨h1, h2, by simp [h3], h4, h5⟩) fun k a b _ hab => ?_
    obtain ⟨g1, g2, g3, g4, g5⟩ := State.core_eq_iff.mp hab
    exact State.core_eq_iff.mpr ⟨g1, g2, by simp [genByte, g3], by simp [genByte, g3, g4], g5⟩
  | crypt =>
    simp only [bodyOf, cryptBody, ← h2]
    refine copyLoop_congr (State.core_eq_iff.mpr ⟨h1, h2, by simp [h3], h4, h5⟩)
      (hw (s.operands.srcA.toNat, s.operands.lenA.toNat) (by simp [inputRegions])) fun k a b hab hx => ?_
    obtain ⟨g1, g2, g3, g4, g5⟩ := State.core_eq_iff.mp hab
    obtain ⟨m1, m2, m3⟩ := memRead_congr (s := a.setEngine (prgaStep a.engine).2)
      (t := b.setEngine (prgaStep b.engine).2) hx g4
    simp only [cryptByte, m1, m2, m3]
    exact ⟨State.core_eq_iff.mpr ⟨g1, g2, by simp [g3], by simp [g3, g4], g5⟩, rfl, _, _, rfl⟩
  | flip =>
    simp only [bodyOf, flipBody, ← h2]
    refine copyLoop_congr h
      (hw (s.operands.srcA.toNat, s.operands.lenA.toNat) (by simp [inputRegions])) fun k a b hab hx => ?_
    obtain ⟨g1, g2, g3, g4, g5⟩ := State.core_eq_iff.mp hab
    obtain ⟨m1, m2, m3⟩ := memRead_congr hx g4
    simp only [flipByte, m1, m2, m3]
    exact ⟨State.core_eq_iff.mpr ⟨g1, g2, g3, by simp [g4], g5⟩, rfl, _, _, rfl⟩
  | hamm =>
    let n := min s.operands.lenA.toNat s.operands.lenB.toNat
    have ha := hw (s.operands.srcA.toNat, n) (by simp [inputRegions, n])
    have hb := hw (s.operands.srcB.toNat, n) (by simp [inputRegions, n])
    obtain ⟨e1, e2, e3⟩ := loop_rel
      (f := hammByte s.operands.srcA.toNat s.operands.srcB.toNat)
      (g := hammByte s.operands.srcA.toNat s.operands.srcB.toNat) (n := n) (x := (0, s)) (y := (0, t))
      (fun a b => a.1 = b.1 ∧ a.2 = s ∧ b.2 = t) ⟨rfl, rfl, rfl⟩ fun k a b hk ⟨e1, e2, e3⟩ => by
        obtain ⟨d, a⟩ := a
        obtain ⟨d', b⟩ := b
        simp only at e1 e2 e3
        subst e1 e2 e3
        obtain ⟨m1, m2, m3⟩ := memRead_congr (ha k hk) h4
        obtain ⟨n1, n2, n3⟩ := memRead_congr (hb k hk) h4
        simp [hammByte, m1, m2, m3, n1, n2, n3]
    simp only [bodyOf, hammBody, ← h2]
    rw [e1, e2, e3]
    exact ⟨State.core_eq_iff.mpr ⟨h1, h2, h3, h4, rfl⟩, rfl⟩

/-! ## Transactions by what they access -/

/-- A read changes draws and responses alone (20_memory.md R58). -/
theorem access_read {x : Txn} (h : x.write = false) (s : State) :
    ∃ d rs, access x s = { s with draws := d, responses := rs } := by
  rcases access_cases x s with ⟨_, e⟩ | ⟨off, _, ⟨_, e⟩ | ⟨_, hw, _⟩ | ⟨_, _, d, _, e⟩⟩
  · exact ⟨s.draws, s.responses, e⟩
  · exact ⟨s.draws, _, e⟩
  · rw [h] at hw; cases hw
  · exact ⟨d, _, e⟩

/-- A transaction that accesses nothing changes responses alone (20_memory.md R46, R53). -/
theorem access_nothing {x : Txn} {s : State} (h : x.target s.params = none) :
    ∃ rs, access x s = { s with responses := rs } := by
  unfold Txn.target at h
  rcases access_cases x s with ⟨_, e⟩ | ⟨off, ho, ⟨_, e⟩ | ⟨hb, _, _⟩ | ⟨hb, _, _⟩⟩
  · exact ⟨s.responses, e⟩
  · exact ⟨_, e⟩
  · simp [ho, hb] at h
  · simp [ho, hb] at h

/-- A write has the effect of its target (20_memory.md R57, R63). -/
theorem access_write {x : Txn} {s : State} {t : Target} (hw : x.write = true)
    (h : x.target s.params = some t) :
    access x s = (match t with
      | .reg r => writeReg r x.wdata s
      | .reserved => s
      | .sbox _ => s
      | .dmem a => if s.busy then s else memWriteBytes x.size.bytes a x.wdata s).respond .writeAck := by
  unfold Txn.target at h
  rcases access_cases x s with ⟨hn, _⟩ | ⟨off, ho, ⟨hb, _⟩ | ⟨hb, _, e⟩ | ⟨_, hw', _⟩⟩
  · simp [hn] at h
  · simp [ho, hb] at h
  · simp [ho, hb] at h
    rw [e, ← h]
    unfold busWrite
    cases targetOf off <;> rfl
  · rw [hw] at hw'; cases hw'

/-! ## Events and runs -/

@[simp] theorem alongRun_nil (cond : Bool → Event → State → Bool) (waiting : Bool) (s : State) :
    alongRun cond waiting [] s = true := rfl

theorem alongRun_cons (cond : Bool → Event → State → Bool) (waiting : Bool) (e : Event) (rest : List Event)
    (s : State) : alongRun cond waiting (e :: rest) s = true ↔ cond waiting e s = true ∧
      alongRun cond (waitingAfter waiting e s) rest (eventResult e (s.setInbox rest)) = true := by
  simp [alongRun]

/-- A run that has ended stays where it is (70_reset_and_hazards.md R149). -/
theorem run_of_ended {s : State} (h : s.ended) (n : Nat) : core.run n s = .next s := by
  induction n with
  | zero => rfl
  | succ n ih =>
    have hs : core.step s = .next s := by
      show step s = _
      rw [step_nil h.1]
      simp [sequencerMove, h.2]
      rfl
    simp only [Host.Core.run, hs]
    exact ih

/-- A run that ends goes through its first event, which is no reset inside a transaction. -/
theorem run_cons {n : Nat} {s t : State} {e : Event} {rest : List Event} (hi : s.inbox = e :: rest)
    (h : core.run n s = .next t) (he : t.ended) :
    (∀ x, e ≠ .rstMidTxn x) ∧ ∃ m, core.run m (eventResult e (s.setInbox rest)) = .next t := by
  cases n with
  | zero => cases h; rw [he.1] at hi; cases hi
  | succ n =>
    have hs : core.step s = handleEvent e (s.setInbox rest) := step_cons hi
    simp only [Host.Core.run, hs] at h
    cases hh : handleEvent e (s.setInbox rest) with
    | next u =>
      rw [hh] at h
      exact ⟨fun x hx => by subst hx; simp [handleEvent] at hh, n, by simp only [eventResult, hh]; exact h⟩
    | fault f => rw [hh] at h; cases h
    | refused f => rw [hh] at h; cases h

end Sys2Proof.Machine
end

