-- ==== Sys2Proof/Laws/PerInstr.lean ====
section
/-! SUPPORT. One statement per command, as syntax: its command word has RSV = 0 and a listed OP
(30_encoding.md R70, R71, R74). -/

namespace Sys2Proof.Laws.Encoding

/-- The command is well formed, and its word is legal with its opcode in bits 7:0. -/
def Statement (i : Instr) : Prop :=
  i.wf = true ∧ legalWord (encode i) = true ∧ opField (encode i) = opcode i

theorem init : Statement .init := by unfold Statement; decide

theorem gen : Statement .gen := by unfold Statement; decide

theorem crypt : Statement .crypt := by unfold Statement; decide

theorem flip : Statement .flip := by unfold Statement; decide

theorem hamm : Statement .hamm := by unfold Statement; decide

end Sys2Proof.Laws.Encoding
end

