-- ==== Sys2Proof/Tests/Slice0.lean ====
section
/-! SUPPORT. Tests of single steps against vectors of spec/95_test_vectors.md (each test names its vector) or
against values worked out by hand from the rules; the smoke test of WellFormed; and, for every statement with
hypotheses, a theorem `witness_<its name>` with states and operands that meet all of them. -/

namespace Sys2Proof.Tests

open Sys2Proof Sys2Proof.Machine

/-! ## Small states -/

/-- The reset state with these operands and these written bytes. -/
def atReset (o : Operands) (m : Memory) : State := { State.reset with operands := o, dmem := m }

/-- An instance whose permutation is the identity and whose drop count is n: its keystream is short to work
out by hand from 41_cipher.md R94. -/
def instanceWithDrop (n : Word) : Engine := { Engine.reset with keyed := true, dropcfg := n }

/-- `atReset` with such an instance. -/
def withInstance (n : Word) (o : Operands) (m : Memory) : State := (atReset o m).setEngine (instanceWithDrop n)

/-- Operands by SRC_A, DST and LEN_A. -/
def ops (srcA dst lenA : Word) : Operands := { Operands.reset with srcA := srcA, dst := dst, lenA := lenA }

/-- Operands of a FLIP. -/
def flipOps (srcA dst lenA bitidx : Word) : Operands := { ops srcA dst lenA with bitidx := bitidx }

/-- Operands of a HAMM. -/
def hammOps (srcA lenA srcB lenB : Word) : Operands :=
  { Operands.reset with srcA := srcA, lenA := lenA, srcB := srcB, lenB := lenB }

/-- Operands of an INIT. -/
def keyOps (srcA lenA drop : Word) : Operands := { ops srcA 0 lenA with drop := drop }

/-- p holds of the next state, and there is one. -/
def nextHas (o : Host.Outcome State Fault Refusal) (p : State → Bool) : Bool :=
  match o with
  | .next t => p t
  | _ => false

/-- The command word w is running and completes next. -/
def running (w : Word) (s : State) : State := s.setSeq (.busy w)

/-- "Key" at local address 0. -/
def keyBytes : List Byte := [0x4B, 0x65, 0x79]

def keyMemory : Memory := [(0, 0x4B), (1, 0x65), (2, 0x79)]

/-! ## WellFormed refuses what is ill formed -/

theorem test_reserved_bits_are_ill_formed : legalWord 0x00000101 = false := by decide
theorem test_unlisted_op_zero_is_ill_formed : legalWord 0x00000000 = false := by decide
theorem test_unlisted_op_six_is_ill_formed : legalWord 0x00000006 = false := by decide
theorem test_dmem_size_not_a_power_is_ill_formed :
    Params.dmemIsPowerOfTwo { base := 0, dmemSize := 5000 } = false := by decide
theorem test_dmem_size_too_small_is_ill_formed :
    Params.dmemInRange { base := 0, dmemSize := 128 } = false := by decide
theorem test_dmem_size_too_large_is_ill_formed :
    Params.dmemInRange { base := 0, dmemSize := 2097152 } = false := by decide
theorem test_base_off_its_multiple_is_ill_formed :
    Params.baseAligned { base := 0x1000, dmemSize := 4096 } = false := by decide
theorem test_params_at_the_bounds_are_well_formed :
    Params.wf { base := 0x2000, dmemSize := 256 } = true ∧ Params.wf { base := 0x200000, dmemSize := 1048576 } = true := by
  decide

/-! ## Decoding, from words written out bit by bit (30_encoding.md R70, R71) -/

theorem test_decode_init : decode 0b00000000000000000000000000000001#32 = .ok .init := by decide
theorem test_decode_gen : decode 0b00000000000000000000000000000010#32 = .ok .gen := by decide
theorem test_decode_crypt : decode 0b00000000000000000000000000000011#32 = .ok .crypt := by decide
theorem test_decode_flip : decode 0b00000000000000000000000000000100#32 = .ok .flip := by decide
theorem test_decode_hamm : decode 0b00000000000000000000000000000101#32 = .ok .hamm := by decide

/-- Vectors E7 to E11. -/
theorem test_illegal_words :
    decode 0x00000000 = .error (.unknownOpcode 0) ∧ decode 0x00000006 = .error (.unknownOpcode 6) ∧
    decode 0x000000FF = .error (.unknownOpcode 0xFF) ∧ decode 0x00000101 = .error (.reservedBits 1) ∧
    decode 0x80000001 = .error (.reservedBits 0x800000) := by decide

theorem test_table_words :
    decodeTableWord 32 1 = some .init ∧ decodeTableWord 32 5 = some .hamm ∧ decodeTableWord 8 3 = some .crypt ∧
    decodeTableWord 32 6 = none ∧ decodeTableWord 40 1 = none := by decide

/-- Vectors E3, E1 and E12, and H8's empty buffers: each table word runs as the first command after reset. -/
theorem test_table_words_run :
    nextHas (step (State.reset.withFetchWord 32 1)) (fun t => statusWord t == 0x106) = true ∧
    nextHas (step (State.reset.withFetchWord 32 2)) (fun t => statusWord t == 0x406) = true ∧
    nextHas (step (State.reset.withFetchWord 32 3)) (fun t => statusWord t == 0x406) = true ∧
    nextHas (step (State.reset.withFetchWord 32 4)) (fun t => statusWord t == 0x206) = true ∧
    nextHas (step (State.reset.withFetchWord 32 5)) (fun t => statusWord t == 0x002) = true := by decide

/-! ## The commands -/

/-- Vector E6: 4094 + 3 > 4096. Vector E5: 257 key bytes. -/
theorem test_init_errors :
    nextHas (execInit (atReset (keyOps 4094 3 0) [])) (fun t => statusWord t == 0x506) = true ∧
    nextHas (execInit (atReset (keyOps 0 257 0) [])) (fun t => statusWord t == 0x106) = true := by decide

/-- Vectors S2, K1 and KS1: after INIT "Key" STATUS is 0x0A and the first keystream byte is EB. -/
theorem test_init_known_answer :
    nextHas (execInit (atReset (keyOps 0 3 0) keyMemory))
      (fun t => statusWord t == 0x0A && (prgaStep t.engine).1 == 0xEB) = true := by decide +kernel

/-- By hand from R94 on the identity permutation: bytes 02 and 05, (I, J) = (2, 3), S[2] and S[3] exchanged. -/
theorem test_gen_two_bytes :
    nextHas (execGen (withInstance 0 (ops 0 0x10 2) [])) (fun t =>
      t.dmem == [(0x10, 0x02), (0x11, 0x05)] && cursorsWord t == 0x0302 && statusWord t == 0x1A &&
      sboxGet t.engine.sbox 2 == 3) = true := by decide +kernel

/-- Vectors DR2 (the drop runs for n = 0, here one step) and G4 (4097 + 0 is out of range). -/
theorem test_gen_of_no_bytes :
    nextHas (execGen (withInstance 1 (ops 0 4096 0) [])) (fun t =>
      t.engine.dropped == 1 && t.engine.dropDone && cursorsWord t == 0x0101 && t.dmem == []) = true ∧
    nextHas (execGen (withInstance 1 (ops 0 4097 0) [])) (fun t => statusWord t == 0x50E) = true := by
  decide +kernel

/-- By hand from R104 with keystream 02 05: disjoint regions. -/
theorem test_crypt_disjoint :
    nextHas (execCrypt (withInstance 0 (ops 0 0x20 2) [(0, 0xFF), (1, 0x0F)])) (fun t =>
      t.dmem == [(0, 0xFF), (1, 0x0F), (0x20, 0xFD), (0x21, 0x0A)]) = true := by decide +kernel

/-- By hand from R104 and R10 with keystream 02 05, as vector CR5: iteration 1 reads what iteration 0 wrote. -/
theorem test_crypt_overlap :
    nextHas (execCrypt (withInstance 0 (ops 0x10 0x11 2) [(0x10, 0x50), (0x11, 0x6C)])) (fun t =>
      t.dmem == [(0x10, 0x50), (0x11, 0x52), (0x12, 0x57)]) = true := by decide +kernel

/-- Vectors F1 and F11. -/
theorem test_flip :
    nextHas (execFlip (atReset (flipOps 0 4 2 9) [(0, 0), (1, 0)])) (fun t =>
      t.dmem == [(0, 0), (1, 0), (4, 0), (5, 2)] && statusWord t == 2) = true ∧
    nextHas (execFlip (atReset (flipOps 0 4 2 0xFFFFFFFF) [])) (fun t => statusWord t == 0x206) = true := by
  decide

/-- Vector F8: partial overlap. -/
theorem test_flip_overlap :
    nextHas (execFlip (atReset (flipOps 0 1 3 0) [(0, 1), (1, 2), (2, 3), (3, 4)])) (fun t =>
      t.dmem == [(0, 1), (1, 0), (2, 0), (3, 0)]) = true := by decide

/-- Vectors H1 and H2. -/
theorem test_hamm :
    nextHas (execHamm (atReset (hammOps 0 1 4 1) [(0, 0), (4, 0xFF)])) (fun t => t.result == 8) = true ∧
    nextHas (execHamm (atReset (hammOps 0 2 4 1) [(0, 0x0F), (1, 0xF0), (4, 0xF0)])) (fun t => t.result == 8) =
      true := by decide

/-- Vectors H8 and H9. -/
theorem test_hamm_of_empty_buffers :
    nextHas (execHamm ((atReset (hammOps 0 0 4096 0) []).setResult 7)) (fun t => t.result == 0) = true ∧
    nextHas (execHamm ((atReset (hammOps 0 0 0xFFFFFFFF 1) []).setResult 7)) (fun t =>
      statusWord t == 0x506 && t.result == 7) = true := by decide +kernel

/-! ## The bus -/

/-- Vectors B1, B4, B5 and B6. -/
theorem test_bus_reads_and_errors :
    (hostRead .b4 0x000 State.reset).responses = [.readData 0x52433401] ∧
    (hostRead .b1 0x008 State.reset).responses = [.busError] ∧
    hostWrite .b2 0x00C 1 State.reset = State.reset.respond .busError ∧
    (hostRead .b4 0x1002 State.reset).responses = [.busError] := by decide +kernel

/-- Vectors B7, B8 and B9. -/
theorem test_bus_is_little_endian :
    (hostWrite .b4 0x1000 0x0079654B State.reset).dmem = [(0, 0x4B), (1, 0x65), (2, 0x79), (3, 0)] ∧
    (hostRead .b2 0x1002 (atReset Operands.reset [(0, 0x4B), (1, 0x65), (2, 0x79), (3, 0)])).responses =
      [.readData 0x0079] ∧
    (hostRead .b4 0x1000 (atReset Operands.reset [(0, 0x4B), (1, 0x65), (2, 0x79), (3, 0xAA)])).responses =
      [.readData 0xAA79654B] := by decide

/-- Vector B10: the identity permutation through the SBOX window, whose writes are ignored. -/
theorem test_bus_sbox_window :
    (hostRead .b4 0x100 (hostWrite .b4 0x100 0x12345678 State.reset)).responses =
      [.readData 0x03020100, .writeAck] := by decide

/-- Vectors S4 and S5: write one to clear. -/
theorem test_status_write_clears :
    let s := { State.reset with done := true, err := true, errcode := .addrRange }
    statusWord (hostWrite .b4 0x008 0x26 s) = 0x500 ∧ statusWord (hostWrite .b4 0x008 0x04 s) = 0x502 := by decide

/-- Vector S9: a CMD write while BUSY. Vector S6: CTRL keeps bit 0. -/
theorem test_cmd_lost_and_ctrl :
    statusWord (hostWrite .b4 0x00C 2 (running 1 State.reset)) = 0x21 ∧
    ctrlWord (hostWrite .b4 0x004 0xFFFFFFFF State.reset) = 1 := by decide

/-- The expansion of `poll` with one busy read (30_encoding.md R76), and `sw CMD, HAMM` (R76, R71). -/
theorem test_host_lines :
    HostLine.events Params.default (.poll 1) =
      [.txn (readAt Params.default .b4 8), .complete, .txn (readAt Params.default .b4 8)] ∧
    swCmd .hamm = .sw 0x00C 5 := by decide

/-! ## Witnesses: every statement with hypotheses has states and operands that meet all of them -/

/-- A host read of the window. -/
def someRead : Txn := readAt Params.default .b4 0x1000

theorem witness_DecodeAndEncodeAgree : ∀ i : Instr, i.wf = true ∧ decode (encode i) = .ok i := by
  intro i; cases i <;> decide

theorem witness_ResetEdgeAbandonsEverything :
    ∃ (s : State) (rest : List Event), s.inbox = .rst none :: rest ∧ s.busy = true :=
  ⟨running 1 (State.reset.setInbox [.rst none, .complete]), [.complete], rfl, rfl⟩

/-- A transaction in the window, and one outside it. -/
theorem witness_TransactionDuringResetIsNotPerformed :
    (∃ (s : State) (x : Txn) (rest : List Event), s.inbox = .rst (some x) :: rest ∧
      windowOffset s.params x.addr ≠ none) ∧
    (∃ (s : State) (x : Txn) (rest : List Event), s.inbox = .rst (some x) :: rest ∧
      windowOffset s.params x.addr = none) :=
  ⟨⟨State.reset.setInbox [.rst (some someRead)], someRead, [], rfl, by decide⟩,
   ⟨State.reset.setInbox [.rst (some (readAt Params.default .b4 0x2000))], readAt Params.default .b4 0x2000, [],
    rfl, by decide⟩⟩

theorem witness_StepRunsTheDecodedCommand :
    ∀ i : Instr, ∃ (s : State) (w : Word), s.seq = .busy w ∧ decode w = .ok i ∧ s.inbox = [] ∧
      (s.setInbox [.complete]).inbox = [.complete] :=
  fun i => ⟨running (encode i) State.reset, encode i, rfl, (witness_DecodeAndEncodeAgree i).2, rfl, rfl⟩

theorem witness_StepTakesTheNextEvent :
    (∃ (s : State) (x : Txn) (rest : List Event), s.inbox = .txn x :: rest) ∧
    (∃ s : State, s.seq = .idle ∧ s.inbox = []) ∧
    (∃ (s : State) (rest : List Event), s.seq = .idle ∧ s.inbox = .complete :: rest) :=
  ⟨⟨State.reset.setInbox [.txn someRead], someRead, [], rfl⟩, ⟨State.reset, rfl, rfl⟩,
   ⟨State.reset.setInbox [.complete], [], rfl, rfl⟩⟩

/-- Both sides of the equivalence occur. -/
theorem witness_StepStopsOnlyOnResetMidTransaction :
    (∃ s : State, ∀ x, s.inbox.head? ≠ some (.rstMidTxn x)) ∧
    (∃ (s : State) (x : Txn), s.inbox.head? = some (.rstMidTxn x)) :=
  ⟨⟨State.reset, by simp [State.reset]⟩, ⟨State.reset.setInbox [.rstMidTxn someRead], someRead, rfl⟩⟩

theorem witness_EveryRunEnds :
    ∃ s : State, (∀ x, Event.rstMidTxn x ∉ s.inbox) ∧ s.busy = true ∧ s.inbox.length = 2 :=
  ⟨running 0 (State.reset.setInbox [.txn someRead, .rst none]), by simp [running, State.setSeq, State.setInbox], rfl, rfl⟩

theorem witness_CmdWriteIssuesOrIsLost :
    (∃ s : State, s.seq = .idle) ∧ (∃ (s : State) (p : Word), s.seq = .busy p) :=
  ⟨⟨State.reset, rfl⟩, ⟨running 1 State.reset, 1, rfl⟩⟩

/-- OP 0x00, OP 0x06, and RSV nonzero below a listed OP. -/
theorem witness_IllegalWordCompletesWithIllegalCmd :
    ∀ w ∈ [0x00000000#32, 0x00000006, 0x00000101, 0x80000001],
      ∃ s : State, s.seq = .busy w ∧ legalWord w = false ∧ s.inbox = [] ∧
        (s.setInbox [.complete]).inbox = [.complete] :=
  fun w hw => ⟨running w State.reset, rfl, by
    simp only [List.mem_cons, List.not_mem_nil, or_false] at hw
    rcases hw with rfl | rfl | rfl | rfl <;> rfl, rfl, rfl⟩

/-- Each branch of the checks is reached; two of them are vectors E4 and E13. -/
theorem witness_ChecksComeInOrder :
    check .gen (atReset (ops 0 5000 1) []) = .notKeyed ∧
    check .init (atReset (keyOps 0xFFFFFFFF 0 0) []) = .invalidKey ∧
    check .flip (atReset (flipOps 0 4095 2 100) []) = .addrRange ∧
    check .flip (atReset (flipOps 0 4 2 16) []) = .bitIndexRange ∧
    check .flip (atReset (flipOps 0 4 2 15) []) = .none := by decide +kernel

/-- Of its second part, `witness_IllegalWordCompletesWithIllegalCmd` is the witness. -/
theorem witness_FailedCommandChangesOnlyStatus : ∀ i : Instr, ∃ s : State, check i s ≠ .none
  | .init => ⟨State.reset, by decide⟩
  | .gen => ⟨State.reset, by decide⟩
  | .crypt => ⟨State.reset, by decide⟩
  | .flip => ⟨State.reset, by decide⟩
  | .hamm => ⟨atReset (hammOps 4096 1 0 0) [], by decide⟩

/-- A running illegal word. -/
theorem witness_CompletionWritesStatus : ∃ (s : State) (w : Word), s.seq = .busy w ∧ legalWord w = false :=
  ⟨running 6 State.reset, 6, rfl, by decide⟩

/-- The shortest and the longest key, the latter ending at the end of DMEM. -/
theorem witness_InitBuildsTheInstance :
    ∀ n ∈ [1, 256], ∃ (s : State) (key : List Byte), key.length = n ∧ 1 ≤ key.length ∧ key.length ≤ 256 ∧
      s.operands.lenA.toNat = key.length ∧ s.fits s.operands.srcA s.operands.lenA ∧
      s.dmem.holds s.operands.srcA.toNat key := by
  intro n hn
  rcases List.mem_pair.1 hn with rfl | rfl
  · exact ⟨atReset (keyOps 0 1 0) [(0, 7)], [7], rfl, by decide, by decide, rfl, by decide,
      by unfold Memory.holds; decide⟩
  · exact ⟨atReset (keyOps 3840 256 0) ((List.range 256).map fun k => (3840 + k, 7)), List.replicate 256 7,
      List.length_replicate, by decide +kernel, by decide +kernel, by decide +kernel, by decide +kernel,
      by unfold Memory.holds; decide +kernel⟩

/-- The shortest and the longest key region, nothing written. -/
theorem witness_InitCompletesOnEveryKeyRegion :
    ∀ n ∈ [1#32, 256#32], ∃ s : State, s.operands.lenA = n ∧ 1 ≤ s.operands.lenA.toNat ∧
      s.operands.lenA.toNat ≤ 256 ∧ s.fits s.operands.srcA s.operands.lenA := by
  intro n hn
  rcases List.mem_pair.1 hn with rfl | rfl
  · exact ⟨atReset (keyOps 4095 1 0) [], rfl, by decide, by decide, by decide⟩
  · exact ⟨atReset (keyOps 3840 256 0) [], rfl, by decide, by decide, by decide⟩

/-- The state of an INIT of "Key". -/
def keyState : State := atReset (keyOps 0 3 0) keyMemory

theorem keyState_holds : keyState.dmem.holds 0 keyBytes := by unfold Memory.holds; decide

theorem witness_InitFrame : ∃ s t : State, exec .init s = .next t ∧ check .init s = .none :=
  ⟨keyState, _, rfl, by decide +kernel⟩

theorem witness_CipherReproducesRc4 :
    ∃ (s t : State) (key : List Byte), 1 ≤ key.length ∧ key.length ≤ 256 ∧
      s.operands.lenA.toNat = key.length ∧ s.fits s.operands.srcA s.operands.lenA ∧
      s.dmem.holds s.operands.srcA.toNat key ∧ exec .init s = .next t :=
  ⟨keyState, _, keyBytes, by decide, by decide, rfl, by decide, keyState_holds, rfl⟩

/-- Vectors K8 and K9 as premises. -/
theorem witness_RepeatedKeySchedulesTheSame :
    ∃ (key : List Byte) (m : Nat), 1 ≤ key.length ∧ 1 ≤ m ∧
      (List.replicate m key).flatten = [0x4B, 0x65, 0x79, 0x4B, 0x65, 0x79] :=
  ⟨keyBytes, 2, by decide, by decide, rfl⟩

/-- The two cursors meet at the first step of the identity permutation, and differ at the second. -/
theorem witness_PrgaStepFollowsTheRule :
    (∃ (e : Engine) (i j : Byte), i = e.i + 1 ∧ j = e.j + sboxGet e.sbox i ∧ i = j) ∧
    (∃ (e : Engine) (i j : Byte), i = e.i + 1 ∧ j = e.j + sboxGet e.sbox i ∧ i ≠ j) :=
  ⟨⟨Engine.reset, 1, 1, by decide +kernel⟩, ⟨{ Engine.reset with i := 1, j := 1 }, 2, 3, by decide +kernel⟩⟩

theorem witness_DropRunsOnce :
    (∃ e : Engine, e.dropDone = true ∧ e.keyed = true) ∧
    (∃ e : Engine, e.dropDone = false ∧ e.keyed = true ∧ e.dropcfg = 3) :=
  ⟨⟨{ instanceWithDrop 3 with dropDone := true }, rfl, rfl⟩, ⟨instanceWithDrop 3, rfl, rfl, rfl⟩⟩

/-- The state that a command leaves, to name the states of a sequence of commands. -/
def afterInit (s : State) : State := runCommand .init initBody s
def afterGen (s : State) : State := runCommand .gen genBody s
def afterCrypt (s : State) : State := runCommand .crypt cryptBody s
def afterFlip (s : State) : State := runCommand .flip flipBody s
def afterHamm (s : State) : State := runCommand .hamm hammBody s

/-- The second block is another one: BUSY history, operands and DMEM differ, the key bytes do not. -/
theorem witness_EqualKeysGiveEqualKeystreams :
    ∃ (s₁ s₂ t₁ t₂ u₁ u₂ : State) (o₁ o₂ : Operands) (key : List Byte),
      s₁.operands.lenA.toNat = key.length ∧ s₂.operands.lenA.toNat = key.length ∧
      s₁.dmem.holds s₁.operands.srcA.toNat key ∧ s₂.dmem.holds s₂.operands.srcA.toNat key ∧
      check .init s₁ = .none ∧ check .init s₂ = .none ∧ s₁.operands.drop = s₂.operands.drop ∧
      exec .init s₁ = .next t₁ ∧ exec .init s₂ = .next t₂ ∧
      o₁.lenA = o₂.lenA ∧ check .gen (t₁.setOperands o₁) = .none ∧ check .gen (t₂.setOperands o₂) = .none ∧
      exec .gen (t₁.setOperands o₁) = .next u₁ ∧ exec .gen (t₂.setOperands o₂) = .next u₂ ∧
      0 < o₁.lenA.toNat ∧ s₁.operands.srcA ≠ s₂.operands.srcA ∧ o₁.dst ≠ o₂.dst :=
  ⟨atReset (keyOps 0 1 2) [(0, 7)], atReset (keyOps 9 1 2) [(9, 7)], afterInit (atReset (keyOps 0 1 2) [(0, 7)]),
   afterInit (atReset (keyOps 9 1 2) [(9, 7)]), _, _, ops 0 16 3, ops 0 32 3, [7], rfl, rfl,
   by unfold Memory.holds; decide, by unfold Memory.holds; decide, by decide +kernel, by decide +kernel, rfl,
   rfl, rfl, rfl, by decide +kernel, by decide +kernel, rfl, rfl, by decide, by decide, by decide⟩

/-- The empty request at the end of DMEM, and a request that fills its last two bytes. -/
theorem witness_GenWritesTheKeystream :
    ∀ o ∈ [ops 0 4096 0, ops 0 4094 2], ∃ s : State, s.operands = o ∧ s.engine.keyed = true ∧
      s.fits s.operands.dst s.operands.lenA := by
  intro o ho
  rcases List.mem_pair.1 ho with rfl | rfl
  · exact ⟨withInstance 1 (ops 0 4096 0) [], rfl, rfl, by decide⟩
  · exact ⟨withInstance 1 (ops 0 4094 2) [], rfl, rfl, by decide⟩

/-- A passing GEN with an address below its output and one above. -/
theorem witness_GenFrame :
    ∃ s t : State, exec .gen s = .next t ∧ check .gen s = .none ∧
      15 < s.operands.dst.toNat ∧ s.operands.dst.toNat + s.operands.lenA.toNat ≤ 18 :=
  ⟨withInstance 0 (ops 0 16 2) [], _, rfl, by decide +kernel, by decide, by decide⟩

theorem witness_SplitGenEqualsOneGen :
    ∃ (s t₁ t₂ t : State) (o₁ o₂ o : Operands),
      s.engine.keyed = true ∧ o.lenA.toNat = o₁.lenA.toNat + o₂.lenA.toNat ∧
      o.dst = o₁.dst ∧ o₂.dst.toNat = o₁.dst.toNat + o₁.lenA.toNat ∧ s.fits o.dst o.lenA ∧
      exec .gen (s.setOperands o₁) = .next t₁ ∧ exec .gen (t₁.setOperands o₂) = .next t₂ ∧
      exec .gen (s.setOperands o) = .next t :=
  ⟨withInstance 1 (ops 0 0 0) [], afterGen ((withInstance 1 (ops 0 0 0) []).setOperands (ops 0 16 1)), _, _,
   ops 0 16 1, ops 0 17 2, ops 0 16 3, rfl, rfl, rfl, rfl, by decide, rfl, rfl, rfl⟩

/-- Disjoint regions, one region in place, and an overlap where input byte 1 is output byte 0: each of the two
clauses on output bytes applies to some byte. -/
theorem witness_CryptXorsTheKeystream :
    ∀ o ∈ [ops 0 16 2, ops 0 0 2, ops 0 1 2], ∃ s : State, s.operands = o ∧ s.engine.keyed = true ∧
      s.fits s.operands.srcA s.operands.lenA ∧ s.fits s.operands.dst s.operands.lenA ∧
      0 < s.operands.lenA.toNat ∧
      ((∃ b, (s.operands.srcA.toNat + 0 < s.operands.dst.toNat ∨ s.operands.dst.toNat ≤ s.operands.srcA.toNat) ∧
        s.dmem.lookup (s.operands.srcA.toNat + 0) = some b)) ∧
      (o = ops 0 1 2 → s.operands.srcA.toNat + 1 = s.operands.dst.toNat + 0) := by
  intro o ho
  simp only [List.mem_cons, List.not_mem_nil, or_false] at ho
  rcases ho with rfl | rfl | rfl
  · exact ⟨withInstance 0 (ops 0 16 2) [(0, 9)], rfl, rfl, by decide, by decide, by decide,
      ⟨9, by decide, rfl⟩, by decide⟩
  · exact ⟨withInstance 0 (ops 0 0 2) [(0, 9)], rfl, rfl, by decide, by decide, by decide,
      ⟨9, by decide, rfl⟩, by decide⟩
  · exact ⟨withInstance 0 (ops 0 1 2) [(0, 9)], rfl, rfl, by decide, by decide, by decide,
      ⟨9, by decide, rfl⟩, by decide⟩

theorem witness_CryptFrame :
    ∃ s t : State, exec .crypt s = .next t ∧ check .crypt s = .none ∧
      15 < s.operands.dst.toNat ∧ s.operands.dst.toNat + s.operands.lenA.toNat ≤ 18 :=
  ⟨withInstance 0 (ops 0 16 2) [(0, 9)], _, rfl, by decide +kernel, by decide, by decide⟩

/-- DMEM with the key byte at 0 and two bytes of plaintext at 16. -/
def plainMemory : Memory := [(0, 7), (16, 0x50), (17, 0x6C)]

/-- In place twice, and disjoint twice. -/
theorem witness_DecryptUndoesEncrypt :
    ∀ d ∈ [(16#32, 16#32), (32#32, 48#32)],
    ∃ (s s₁ s₂ s₃ s₄ : State) (k₁ c₁ k₂ c₂ : Operands) (key plain : List Byte),
      c₁.dst = d.1 ∧ c₂.dst = d.2 ∧ 0 < plain.length ∧
      k₁.lenA.toNat = key.length ∧ k₂ = k₁ ∧
      s.dmem.holds k₁.srcA.toNat key ∧ s.dmem.holds c₁.srcA.toNat plain ∧
      c₁.lenA.toNat = plain.length ∧ c₂.lenA = c₁.lenA ∧ c₂.srcA = c₁.dst ∧
      (c₁.dst = c₁.srcA ∨ disjoint c₁.srcA.toNat c₁.dst.toNat plain.length) ∧
      (c₂.dst = c₂.srcA ∨ disjoint c₂.srcA.toNat c₂.dst.toNat plain.length) ∧
      (k₁.srcA.toNat + key.length ≤ c₁.dst.toNat ∨ c₁.dst.toNat + plain.length ≤ k₁.srcA.toNat) ∧
      check .init (s.setOperands k₁) = .none ∧ exec .init (s.setOperands k₁) = .next s₁ ∧
      check .crypt (s₁.setOperands c₁) = .none ∧ exec .crypt (s₁.setOperands c₁) = .next s₂ ∧
      check .init (s₂.setOperands k₂) = .none ∧ exec .init (s₂.setOperands k₂) = .next s₃ ∧
      check .crypt (s₃.setOperands c₂) = .none ∧ exec .crypt (s₃.setOperands c₂) = .next s₄ := by
  intro d hd
  let s := atReset (keyOps 0 1 3) plainMemory
  let k := keyOps 0 1 3
  rcases List.mem_pair.1 hd with rfl | rfl
  · let c := ops 16 16 2
    let s₁ := afterInit (s.setOperands k)
    let s₂ := afterCrypt (s₁.setOperands c)
    exact ⟨s, s₁, s₂, afterInit (s₂.setOperands k), _, k, c, k, c, [7], [0x50, 0x6C], rfl, rfl, by decide, rfl,
      rfl, by unfold Memory.holds; decide, by unfold Memory.holds; decide, rfl, rfl, rfl, by decide, by decide,
      by decide, by decide +kernel, rfl, by decide +kernel, rfl, by decide +kernel, rfl, by decide +kernel, rfl⟩
  · let c := ops 16 32 2
    let c' := ops 32 48 2
    let s₁ := afterInit (s.setOperands k)
    let s₂ := afterCrypt (s₁.setOperands c)
    exact ⟨s, s₁, s₂, afterInit (s₂.setOperands k), _, k, c, k, c', [7], [0x50, 0x6C], rfl, rfl, by decide, rfl,
      rfl, by unfold Memory.holds; decide, by unfold Memory.holds; decide, rfl, rfl, rfl, by decide, by decide,
      by decide, by decide +kernel, rfl, by decide +kernel, rfl, by decide +kernel, rfl, by decide +kernel, rfl⟩

/-- The highest legal bit index (vector F3), disjoint; and the overlap of vector F8, where input byte 1 is output
byte 0. Each of the two cases of the clause on output bytes applies to some byte. -/
theorem witness_FlipInvertsOneBit :
    ∀ o ∈ [flipOps 0 4 2 15, flipOps 0 1 3 0], ∃ s : State, s.operands = o ∧
      s.fits s.operands.srcA s.operands.lenA ∧ s.fits s.operands.dst s.operands.lenA ∧
      s.operands.bitidx.toNat < 8 * s.operands.lenA.toNat ∧
      (s.operands.srcA.toNat + 0 < s.operands.dst.toNat ∧ s.dmem.lookup (s.operands.srcA.toNat + 0) = some 1) ∧
      (o = flipOps 0 1 3 0 →
        s.operands.srcA.toNat + 1 = s.operands.dst.toNat + 0 ∧
        (afterFlip s).dmem.lookup (s.operands.dst.toNat + 0) = some 0) := by
  intro o ho
  rcases List.mem_pair.1 ho with rfl | rfl
  · exact ⟨atReset (flipOps 0 4 2 15) [(0, 1)], rfl, by decide, by decide, by decide, by decide, by decide⟩
  · exact ⟨atReset (flipOps 0 1 3 0) [(0, 1), (1, 2), (2, 3), (3, 4)], rfl, by decide, by decide, by decide,
      by decide, by decide⟩

theorem witness_FlipFrame :
    ∃ s t : State, exec .flip s = .next t ∧ check .flip s = .none ∧
      3 < s.operands.dst.toNat ∧ s.operands.dst.toNat + s.operands.lenA.toNat ≤ 6 :=
  ⟨atReset (flipOps 0 4 2 15) [], _, rfl, by decide, by decide, by decide⟩

/-- Length 0 (vector F12), an index that reads as negative (F11), and the first index out of range (F10). -/
theorem witness_FlipRejectsBitsOutOfRange :
    ∀ o ∈ [flipOps 0 0 0 0, flipOps 0 0 2 0xFFFFFFFF, flipOps 0 0 2 16], ∃ s : State, s.operands = o ∧
      s.params.wf = true ∧ s.fits s.operands.srcA s.operands.lenA ∧ s.fits s.operands.dst s.operands.lenA ∧
      (s.operands.lenA = 0 ∨ s.operands.bitidx.toInt < 0 ∨
        8 * s.operands.lenA.toNat ≤ s.operands.bitidx.toNat) := by
  intro o ho
  refine ⟨atReset o [], rfl, ?_⟩
  revert o; decide

/-- In place twice, and disjoint twice. -/
theorem witness_FlipTwiceRestores :
    ∀ d ∈ [(0#32, 0#32), (4#32, 8#32)], ∃ (s t u : State) (o₁ o₂ : Operands) (x : List Byte),
      o₁.dst = d.1 ∧ o₂.dst = d.2 ∧
      s.dmem.holds o₁.srcA.toNat x ∧ o₁.lenA.toNat = x.length ∧ o₂.lenA = o₁.lenA ∧ o₂.bitidx = o₁.bitidx ∧
      o₂.srcA = o₁.dst ∧
      (o₁.dst = o₁.srcA ∨ disjoint o₁.srcA.toNat o₁.dst.toNat x.length) ∧
      (o₂.dst = o₂.srcA ∨ disjoint o₂.srcA.toNat o₂.dst.toNat x.length) ∧
      check .flip (s.setOperands o₁) = .none ∧ exec .flip (s.setOperands o₁) = .next t ∧
      check .flip (t.setOperands o₂) = .none ∧ exec .flip (t.setOperands o₂) = .next u := by
  intro d hd
  let s := atReset (flipOps 0 0 0 0) [(0, 0x50), (1, 0x6C)]
  rcases List.mem_pair.1 hd with rfl | rfl
  · exact ⟨s, afterFlip (s.setOperands (flipOps 0 0 2 9)), _, flipOps 0 0 2 9, flipOps 0 0 2 9, [0x50, 0x6C],
      rfl, rfl, by unfold Memory.holds; decide, rfl, rfl, rfl, rfl, by decide, by decide, by decide +kernel, rfl,
      by decide +kernel, rfl⟩
  · exact ⟨s, afterFlip (s.setOperands (flipOps 0 4 2 9)), _, flipOps 0 4 2 9, flipOps 4 8 2 9, [0x50, 0x6C],
      rfl, rfl, by unfold Memory.holds; decide, rfl, rfl, rfl, rfl, by decide, by decide, by decide +kernel, rfl,
      by decide +kernel, rfl⟩

/-- Buffers of different lengths (vector H2), and two empty ones, one of them at the end of DMEM (H8). -/
theorem witness_HammCountsDifferingBits :
    (∃ (s : State) (a b : List Byte), a.length = 2 ∧ b.length = 1 ∧
      s.operands.lenA.toNat = a.length ∧ s.operands.lenB.toNat = b.length ∧
      s.fits s.operands.srcA s.operands.lenA ∧ s.fits s.operands.srcB s.operands.lenB ∧
      s.dmem.holds s.operands.srcA.toNat a ∧ s.dmem.holds s.operands.srcB.toNat b) ∧
    (∃ (s : State) (a b : List Byte), s.operands.srcB = 4096 ∧
      s.operands.lenA.toNat = a.length ∧ s.operands.lenB.toNat = b.length ∧
      s.fits s.operands.srcA s.operands.lenA ∧ s.fits s.operands.srcB s.operands.lenB ∧
      s.dmem.holds s.operands.srcA.toNat a ∧ s.dmem.holds s.operands.srcB.toNat b) :=
  ⟨⟨atReset (hammOps 0 2 4 1) [(0, 0x0F), (1, 0xF0), (4, 0xF0)], [0x0F, 0xF0], [0xF0], rfl, rfl, rfl, rfl,
    by decide, by decide, by unfold Memory.holds; decide, by unfold Memory.holds; decide⟩,
   ⟨atReset (hammOps 0 0 4096 0) [], [], [], rfl, rfl, rfl, by decide, by decide, Memory.holds_nil _ _,
    Memory.holds_nil _ _⟩⟩

/-- Two unwritten buffers, and one written buffer against itself (vector H5). -/
theorem witness_HammStaysInItsBounds :
    (∃ s : State, s.params.wf = true ∧ s.fits s.operands.srcA s.operands.lenA ∧
      s.fits s.operands.srcB s.operands.lenB ∧ s.dmem = [] ∧ 0 < min s.operands.lenA.toNat s.operands.lenB.toNat) ∧
    (∃ s : State, s.params.wf = true ∧ s.fits s.operands.srcA s.operands.lenA ∧
      s.fits s.operands.srcB s.operands.lenB ∧ s.operands.srcB = s.operands.srcA ∧
      s.operands.lenB = s.operands.lenA ∧ inputsWritten .hamm s ∧ s.operands.lenA = 2) :=
  ⟨⟨atReset (hammOps 0 2 4 1) [], by decide, by decide, by decide, rfl, by decide⟩,
   ⟨atReset (hammOps 0 2 0 2) [(0, 0x0F), (1, 0xF0)], by decide, by decide, by decide, rfl, rfl,
    by unfold inputsWritten; decide, rfl⟩⟩

theorem witness_HammFrame : ∃ s t : State, exec .hamm s = .next t ∧ check .hamm s = .none :=
  ⟨atReset (hammOps 0 2 4 1) [], _, rfl, by decide⟩

theorem witness_BitOpsIgnoreTheCipher :
    ∃ (s t u : State) (e : Engine), exec .flip s = .next t ∧ exec .hamm s = .next u ∧ check .flip s = .none ∧
      check .hamm s = .none ∧ e.keyed ≠ s.engine.keyed :=
  ⟨atReset (flipOps 0 4 2 15) [], _, _, instanceWithDrop 0, rfl, rfl, by decide, by decide, by decide⟩

/-- For each command, operands that agree with its row and differ elsewhere; the command passes its checks. -/
theorem witness_OnlyListedOperandsMatter :
    ∀ i : Instr, ∃ (s t : State) (o : Operands), exec i s = .next t ∧ check i s = .none ∧ o ≠ s.operands ∧
      (match i with
        | .init => o.srcA = s.operands.srcA ∧ o.lenA = s.operands.lenA ∧ o.drop = s.operands.drop
        | .gen => o.dst = s.operands.dst ∧ o.lenA = s.operands.lenA
        | .crypt => o.srcA = s.operands.srcA ∧ o.dst = s.operands.dst ∧ o.lenA = s.operands.lenA
        | .flip => o.srcA = s.operands.srcA ∧ o.dst = s.operands.dst ∧ o.lenA = s.operands.lenA ∧
            o.bitidx = s.operands.bitidx
        | .hamm => o.srcA = s.operands.srcA ∧ o.srcB = s.operands.srcB ∧ o.lenA = s.operands.lenA ∧
            o.lenB = s.operands.lenB)
  | .init => ⟨keyState, _, flipOps 0 5 3 9, rfl, by decide, by decide, by decide⟩
  | .gen => ⟨withInstance 0 (ops 0 4 2) [], _, flipOps 9 4 2 9, rfl, by decide, by decide, by decide⟩
  | .crypt => ⟨withInstance 0 (ops 0 4 2) [], _, flipOps 0 4 2 9, rfl, by decide, by decide, by decide⟩
  | .flip => ⟨atReset (flipOps 0 4 2 9) [], _, { flipOps 0 4 2 9 with drop := 5 }, rfl, by decide, by decide,
      by decide⟩
  | .hamm => ⟨atReset (hammOps 0 2 4 1) [], _, { hammOps 0 2 4 1 with drop := 5 }, rfl, by decide, by decide,
      by decide⟩

/-- For each command, a passing run on written inputs. -/
theorem written_inputs : ∀ i : Instr, ∃ s t : State, inputsWritten i s ∧ exec i s = .next t ∧ check i s = .none
  | .init => ⟨keyState, _, by unfold inputsWritten; decide, rfl, by decide⟩
  | .gen => ⟨withInstance 0 (ops 0 4 2) [], _, by unfold inputsWritten; decide, rfl, by decide⟩
  | .crypt => ⟨withInstance 0 (ops 0 4 2) [(0, 1), (1, 2)], _, by unfold inputsWritten; decide, rfl, by decide⟩
  | .flip => ⟨atReset (flipOps 0 4 2 9) [(0, 1), (1, 2)], _, by unfold inputsWritten; decide, rfl, by decide⟩
  | .hamm => ⟨atReset (hammOps 0 2 4 1) [(0, 1), (4, 2)], _, by unfold inputsWritten; decide, rfl, by decide⟩

/-- A program's launch state, with the default parameters. -/
def launch (es : List Event) : State := { State.reset with inbox := es }

/-- A 4-byte write to an offset, as an event. -/
def put (off : Nat) (v : Word) : Event := .txn (writeAt Params.default .b4 off v)

/-- A STATUS read, as an event. -/
def pollOnce : Event := .txn (readAt Params.default .b4 0x008)

/-- The host writes a buffer and the operands of a FLIP of its bit 9 into a second buffer. -/
def flipProgram : List Event :=
  [put 0x1000 0, put 0x010 0, put 0x018 4, put 0x01C 2, put 0x024 9, put 0x00C 4]

/-- Then a HAMM of the two buffers. -/
def hammProgram : List Event := [put 0x014 4, put 0x020 2, put 0x00C 5]

/-- The FLIP completes at once; the host enables the interrupt and polls once; the HAMM completes at once. -/
def quickRun : State :=
  launch (flipProgram ++ [.complete, put 0x004 1, pollOnce] ++ hammProgram ++ [.complete, pollOnce])

/-- The FLIP is still running when the host enables the interrupt and polls the first time; the HAMM completes
after the last transaction. -/
def slowRun : State := launch (flipProgram ++ [put 0x004 1, pollOnce, .complete, pollOnce] ++ hammProgram)

theorem next_of_nextHas {o : Host.Outcome State Fault Refusal} {p : State → Bool} (h : nextHas o p = true) :
    ∃ t, o = .next t ∧ p t = true := by
  cases o with
  | next t => exact ⟨t, rfl, h⟩
  | fault r => cases h
  | refused r => cases h

/-- The runs end, with the distance of the two buffers, one bit, in RESULT. -/
theorem ends_with_result_one {s : State} (h : nextHas (core.run 20 s)
    (fun t => decide (t.inbox = [] ∧ t.seq = .idle) && t.result == 1) = true) :
    ∃ t, core.run 20 s = .next t ∧ t.ended ∧ t.result = 1 := by
  obtain ⟨t, ht, hp⟩ := next_of_nextHas h
  simp only [Bool.and_eq_true, decide_eq_true_eq, beq_iff_eq] at hp
  exact ⟨t, ht, hp.1, hp.2⟩

/-- For each command, a passing run on written inputs; and two runs of one program, one quick and one slow, that
meet all launch premises. -/
theorem witness_WrittenInputsDrawNothing :
    (∀ i : Instr, ∃ s t : State, inputsWritten i s ∧ exec i s = .next t ∧ check i s = .none) ∧
    (∃ (s₁ s₂ t₁ t₂ : State) (n₁ n₂ : Nat),
      s₁.LaunchPremises ∧ s₂.LaunchPremises ∧ s₁.preparesInOrder ∧ s₂.preparesInOrder ∧
      s₁.params = s₂.params ∧ hostActions s₁.inbox = hostActions s₂.inbox ∧
      core.run n₁ s₁ = .next t₁ ∧ core.run n₂ s₂ = .next t₂ ∧ t₁.ended ∧ t₂.ended ∧
      s₁.inbox ≠ s₂.inbox ∧ t₁.result = 1) := by
  refine ⟨written_inputs, ?_⟩
  obtain ⟨t₁, r₁, e₁, h₁⟩ := ends_with_result_one (s := quickRun) (by decide +kernel)
  obtain ⟨t₂, r₂, e₂, _⟩ := ends_with_result_one (s := slowRun) (by decide +kernel)
  exact ⟨quickRun, slowRun, t₁, t₂, 20, 20,
    ⟨rfl, rfl, by decide +kernel, by decide +kernel, by decide⟩,
    ⟨rfl, rfl, by decide +kernel, by decide +kernel, by decide⟩,
    by unfold State.preparesInOrder; decide +kernel, by unfold State.preparesInOrder; decide +kernel, rfl,
    by decide +kernel, r₁, r₂, e₁, e₂, by decide +kernel, h₁⟩

/-- Log entry 20: *serial use* alone leaves a program two final states. The host writes SRC_A right behind a CMD
write, without waiting: the write takes effect where the command has completed before it, and is dropped where not
(20_memory.md R63). -/
theorem test_serial_use_alone_leaves_two_final_states :
    (launch [put 0x00C 5, .complete, put 0x010 7]).LaunchPremises ∧
    (launch [put 0x00C 5, put 0x010 7, .complete]).LaunchPremises ∧
    nextHas (core.run 3 (launch [put 0x00C 5, .complete, put 0x010 7])) (fun t => t.operands.srcA == 7) = true ∧
    nextHas (core.run 3 (launch [put 0x00C 5, put 0x010 7, .complete])) (fun t => t.operands.srcA == 0) = true :=
  ⟨⟨rfl, rfl, by decide +kernel, by decide +kernel, by decide⟩,
   ⟨rfl, rfl, by decide +kernel, by decide +kernel, by decide⟩, by decide +kernel, by decide +kernel⟩

/-- Each premise refuses a program that breaks it: a CMD write right behind another, a HAMM of an unwritten byte,
a host read of an unwritten byte, an operand write while the command may still run. -/
theorem test_launch_premises_refuse :
    alongRun serialAt false [put 0x00C 5, .complete, put 0x00C 5] State.reset = false ∧
    alongRun (fun _ => inputsWrittenAt) false [put 0x01C 1, put 0x020 1, put 0x00C 5] State.reset = false ∧
    alongRun (fun _ => inputsWrittenAt) false [.txn (readAt Params.default .b1 0x1000)] State.reset = false ∧
    alongRun preparesAt false [put 0x00C 5, .complete, put 0x010 7] State.reset = false := by decide +kernel

/-- A STATUS read that finds the block idle, or `irq` high, is an observed completion (20_memory.md R65(b), R66). -/
theorem test_observed_completions :
    alongRun preparesAt false [put 0x00C 5, .complete, pollOnce, put 0x010 7] State.reset = true ∧
    alongRun preparesAt false [put 0x004 1, put 0x00C 5, .complete, put 0x010 7] State.reset = true ∧
    alongRun serialAt false [put 0x00C 5, pollOnce, .complete, put 0x00C 5] State.reset = false := by decide +kernel

theorem witness_OperandRegistersStoreAllBits :
    ∃ (s : State) (r : Reg), s.seq = .idle ∧ r ∈ [Reg.srcA, .srcB, .dst, .lenA, .lenB, .bitidx, .drop] :=
  ⟨State.reset, .drop, rfl, by decide⟩

/-- Both ends of each range of offsets: ID, RESULT, the last byte below DMEM; the first and last reserved
offsets of each reserved range. -/
theorem witness_ReadOnlyAndReservedIgnoreWrites :
    (∀ p ∈ [(0, Size.b4), (0x02C, .b4), (0xFFF, .b1)],
      isBusError p.1 p.2 = false ∧ p.1 < 0x1000 ∧ (p.1 = 0 ∨ 0x02C ≤ p.1)) ∧
    (∀ p ∈ [(0x03C, Size.b4), (0x0FC, .b4), (0x200, .b2), (0xFFF, .b1)],
      isBusError p.1 p.2 = false ∧ p.1 < 0x1000 ∧ ((0x03C ≤ p.1 ∧ p.1 < 0x100) ∨ 0x200 ≤ p.1)) := by decide

/-- BUSY, with a legal access to an operand register and to the last byte of DMEM. -/
theorem witness_BusyWritesAreDropped :
    ∃ (s : State) (p : Word), s.seq = .busy p ∧
      ∀ x ∈ [(Size.b4, 0x010), (.b1, 0x1FFF)], isBusError x.2 x.1 = false ∧ x.2 < s.params.windowSize ∧
        x.2 ≠ 0x004 ∧ x.2 ≠ 0x008 ∧ x.2 ≠ 0x00C :=
  ⟨running 1 State.reset, 1, rfl, by decide⟩

/-- BUSY, with the boundary offsets of each range. -/
theorem witness_BusyReadsOfResultsAreFree :
    ∃ (s : State) (p : Word), s.seq = .busy p ∧
      (∀ x ∈ [(Size.b4, 0x03C), (.b4, 0x0FC), (.b2, 0x200), (.b1, 0xFFF)], isBusError x.2 x.1 = false ∧
        ((0x03C ≤ x.2 ∧ x.2 < 0x100) ∨ (0x200 ≤ x.2 ∧ x.2 < 0x1000))) ∧
      (∀ x ∈ [(Size.b4, 0x02C), (.b4, 0x038), (.b1, 0x100), (.b1, 0x1FF), (.b4, 0x1000), (.b1, 0x1FFF)],
        isBusError x.2 x.1 = false ∧ x.2 < s.params.windowSize ∧
        ((0x02C ≤ x.2 ∧ x.2 < 0x03C) ∨ (0x100 ≤ x.2 ∧ x.2 < 0x200) ∨ 0x1000 ≤ x.2)) :=
  ⟨running 1 State.reset, 1, rfl, by decide, by decide⟩

theorem witness_IdleReadsOfResultRegisters : ∃ s : State, s.seq = .idle ∧ s.engine.i = 2 ∧ s.engine.j = 3 :=
  ⟨State.reset.setEngine { Engine.reset with i := 2, j := 3 }, rfl, rfl, rfl⟩

/-- A misaligned access, a narrow access below 0x100 (vectors B6, B4), and two legal ones at the boundary. -/
theorem witness_BusErrorsChangeNothing :
    (∀ p ∈ [(0x1002, Size.b4), (0x0FF, .b1)], ∃ (s : State) (x : Txn),
      windowOffset s.params x.addr = some p.1 ∧ x.size = p.2 ∧
      (p.1 % x.size.bytes ≠ 0 ∨ (p.1 < 0x100 ∧ x.size.bytes ≠ 4))) ∧
    (∀ p ∈ [(0x0FC, Size.b4), (0x100, .b1)], ∃ (s : State) (x : Txn),
      windowOffset s.params x.addr = some p.1 ∧ x.size = p.2 ∧
      ¬ (p.1 % x.size.bytes ≠ 0 ∨ (p.1 < 0x100 ∧ x.size.bytes ≠ 4))) := by
  constructor
  · intro p hp; exact ⟨State.reset, readAt Params.default p.2 p.1, by revert p; decide, rfl, by revert p; decide⟩
  · intro p hp; exact ⟨State.reset, readAt Params.default p.2 p.1, by revert p; decide, rfl, by revert p; decide⟩

/-- The addresses next to both ends of the window, outside and inside, for a block not at address 0. -/
theorem witness_WindowDecodesItsAddresses :
    ∃ s : State, s.params.wf = true ∧ 0x3FFF < s.params.base ∧
      s.params.base + 0x1000 + s.params.dmemSize ≤ 0x6000 ∧ 0x1FFF < 0x1000 + s.params.dmemSize :=
  ⟨{ State.reset with params := { base := 0x4000, dmemSize := 4096 } }, by decide, by decide, by decide, by decide⟩

theorem witness_ReadsHaveNoSideEffect : ∃ x : Txn, x.write = false := ⟨someRead, rfl⟩

/-- The last word, halfword and byte of DMEM. -/
theorem witness_HostWritesDmemLittleEndian :
    ∀ p ∈ [(Size.b4, 4092), (.b2, 4094), (.b1, 4095)], ∃ s : State, s.seq = .idle ∧ p.2 % p.1.bytes = 0 ∧
      p.2 < s.params.dmemSize := by
  intro p hp; exact ⟨State.reset, rfl, by revert p; decide, by revert p; decide⟩

/-- A word, a halfword and a byte, all written. -/
theorem witness_HostReadsDmemLittleEndian :
    ∀ p ∈ [(Size.b4, 4092, [1#8, 2, 3, 4]), (.b2, 4094, [3, 4]), (.b1, 4095, [4])], ∃ s : State,
      s.seq = .idle ∧ p.2.1 % p.1.bytes = 0 ∧ p.2.1 < s.params.dmemSize ∧ p.2.2.length = p.1.bytes ∧
      s.dmem.holds p.2.1 p.2.2 := by
  intro p hp
  refine ⟨atReset Operands.reset [(4092, 1), (4093, 2), (4094, 3), (4095, 4)], rfl, ?_⟩
  unfold Memory.holds
  revert p; decide

/-- A word of which bytes 1 and 3 are unwritten, and an unwritten halfword and byte at the end of DMEM. -/
theorem witness_UnwrittenBytesReadFree :
    ∀ p ∈ [(Size.b4, 4088), (.b2, 4094), (.b1, 4095)], ∃ s : State, s.seq = .idle ∧ p.2 % p.1.bytes = 0 ∧
      p.2 < s.params.dmemSize ∧ s.dmem.lookup 4088 = some 1 ∧ s.dmem.lookup 4089 = none ∧
      s.dmem.lookup 4095 = none := by
  intro p hp
  refine ⟨atReset Operands.reset [(4088, 1), (4090, 2)], rfl, ?_⟩
  revert p; decide

/-- The last word, halfword and byte of the window. -/
theorem witness_SboxWindowReadsTheTable :
    ∃ s : State, s.seq = .idle ∧
      ∀ p ∈ [(Size.b4, 252), (.b2, 254), (.b1, 255)], p.2 < 256 ∧ p.2 % p.1.bytes = 0 :=
  ⟨State.reset, rfl, by decide⟩

/-- Each clause of the interrupt; the completions are of each command and of an illegal word. -/
theorem witness_IrqFollowsDone :
    (∀ i : Instr, ∃ s t : State, exec i s = .next t ∧ s.irqEn = true) ∧
    (∀ w ∈ [1#32, 0#32], ∃ s t : State, s.seq = .busy w ∧ sequencerMove s = .next t ∧ s.irqEn = true) ∧
    (∃ s : State, s.seq = .idle ∧ s.irq = true) ∧
    (∃ v : Word, v.getLsbD 1 = true) ∧ (∃ v : Word, v.getLsbD 0 = false) ∧
    (∃ (s : State) (v : Word), v.getLsbD 0 = true ∧ s.done = true ∧ s.irq = false) := by
  refine ⟨fun i => ?_, fun w hw => ?_, ⟨{ State.reset with irqEn := true, done := true }, rfl, rfl⟩,
    ⟨2, by decide⟩, ⟨0, by decide⟩, ⟨{ State.reset with done := true }, 1, by decide, rfl, rfl⟩⟩
  · cases i <;> exact ⟨State.reset.setIrqEn true, _, rfl, rfl⟩
  · rcases List.mem_pair.1 hw with rfl | rfl
    · exact ⟨running 1 (State.reset.setIrqEn true), _, rfl, rfl, rfl⟩
    · exact ⟨running 0 (State.reset.setIrqEn true), _, rfl, rfl, rfl⟩

theorem witness_HostCannotDisturbARunningCommand :
    ∃ (s : State) (x : Txn), s.busy = true ∧ x.write = true ∧ windowOffset s.params x.addr = some 0x1000 :=
  ⟨running 1 State.reset, writeAt Params.default .b4 0x1000 0, rfl, rfl, by decide⟩

/-- A launch state that is not the reset state. -/
theorem witness_LaunchStatesMeetTheInvariant : ∃ s : State, s.launched ∧ s ≠ State.reset :=
  ⟨State.reset.setInbox [.txn someRead], ⟨by decide, rfl⟩, fun h => by
    have e : [Event.txn someRead] = [] := congrArg State.inbox h
    cases e⟩

/-- The reset state meets the invariant. -/
theorem reset_inv : State.reset.Inv where
  params := by decide
  engine := {
    bijection := identity_bijective
    dropFinished := by intro h; cases h
    dropPending := fun _ => rfl
    unkeyed := fun _ => rfl }
  canonical := List.Pairwise.nil
  inDmem := by intro c hc; cases hc
  busyFlags := by intro h; cases h
  errCode := by intro h; cases h
  result := by decide

theorem witness_StepKeepsTheInvariant :
    ∃ s t : State, s.Inv ∧ step s = .next t ∧ t.done = true := by
  have inv : (running 5 State.reset).Inv :=
    { reset_inv with busyFlags := fun _ => ⟨rfl, rfl⟩, errCode := by intro h; cases h }
  exact ⟨running 5 State.reset, _, inv, rfl, rfl⟩

/-- Steps that change each of the results, none of them at a reset. -/
theorem witness_OnlyCommandsAndResetChangeResults :
    (∃ s t : State, step s = .next t ∧ ¬ s.resetting ∧ s.engine.keyed = false ∧ t.engine.keyed = true) ∧
    (∃ s t : State, step s = .next t ∧ ¬ s.resetting ∧ t.engine.dropcfg ≠ s.engine.dropcfg) ∧
    (∃ s t : State, step s = .next t ∧ ¬ s.resetting ∧ t.result ≠ s.result) ∧
    (∃ s t : State, step s = .next t ∧ ¬ s.resetting ∧ t.engine.sbox ≠ s.engine.sbox ∧
      t.engine.i ≠ s.engine.i ∧ t.engine.j ≠ s.engine.j ∧ s.engine.dropDone = false ∧
      t.engine.dropDone = true ∧ t.engine.dropped ≠ s.engine.dropped) ∧
    (∃ s t : State, step s = .next t ∧ ¬ s.resetting ∧ s.engine.dropDone = true ∧ t.engine.dropDone = false ∧
      t.engine.dropped ≠ s.engine.dropped) := by
  have none : ∀ s : State, s.inbox = [] → ¬ s.resetting := fun s h ⟨t, ht⟩ => by rw [h] at ht; cases ht
  refine ⟨⟨running 1 keyState, _, rfl, none _ rfl, by decide +kernel⟩,
    ⟨running 1 (atReset (keyOps 0 3 5) keyMemory), _, rfl, none _ rfl, by decide +kernel⟩,
    ⟨running 5 (atReset (hammOps 0 1 4 1) [(0, 0), (4, 1)]), _, rfl, none _ rfl, by decide +kernel⟩,
    ⟨running 2 (withInstance 1 (ops 0 16 1) []), _, rfl, none _ rfl, by decide +kernel⟩,
    ⟨running 1 (keyState.setEngine { instanceWithDrop 3 with dropDone := true, dropped := 3 }), _, rfl,
      none _ rfl, by decide +kernel⟩⟩

/-- CMD_LOST set by a CMD write while BUSY, and cleared by a STATUS write. -/
theorem witness_CmdLostIsSticky :
    ∀ b : Bool, ∃ s t : State, step s = .next t ∧ ¬ s.resetting ∧ t.cmdLost ≠ s.cmdLost ∧ t.cmdLost = b
  | true => ⟨(running 1 State.reset).setInbox [.txn (writeAt Params.default .b4 0x00C 1)], _, rfl,
      fun h => (by obtain ⟨_, h⟩ := h; cases h), by decide, by decide⟩
  | false => ⟨(State.reset.setCmdLost true).setInbox [.txn (writeAt Params.default .b4 0x008 0x20)], _, rfl,
      fun h => (by obtain ⟨_, h⟩ := h; cases h), by decide, by decide⟩

end Sys2Proof.Tests
end

section
/-! PROOFS. The cipher unit against RC4 over exact integers (00_scope.md R2; 41_cipher.md R93, R94, R99, R100). The
idea is a simulation: the byte table and byte cursors of the engine represent the integer ones of `Rc4`, and each
round of key scheduling and each keystream step keeps that. -/

namespace Sys2Proof.Machine

/-- INIT's two checks, the key length before the region (41_cipher.md R100, 40_command_cycle.md R86, R89). -/
theorem check_init (s : State) :
    check .init s =
      if 1 ≤ s.operands.lenA.toNat ∧ s.operands.lenA.toNat ≤ 256 then
        if s.fits s.operands.srcA s.operands.lenA then .none else .addrRange
      else .invalidKey := by
  have length : keyLengthOk s.operands = decide (1 ≤ s.operands.lenA.toNat ∧ s.operands.lenA.toNat ≤ 256) :=
    (Bool.decide_and ..).symm
  have region : (regions .init s.operands).all (inRange s.params.dmemSize) =
      decide (s.fits s.operands.srcA s.operands.lenA) := Bool.and_true _
  have noFlip : (Instr.init == Instr.flip) = false := rfl
  simp only [check, needsKey, length, region, noFlip]
  split_ifs <;> simp_all

/-- INIT's body on a written key: a new engine from that key, and nothing else (41_cipher.md R100). -/
theorem initBody_written {s : State} {key : List Byte} (hlen : s.operands.lenA.toNat = key.length)
    (hkey : s.dmem.holds s.operands.srcA.toNat key) :
    initBody s = s.setEngine (newEngine key s.operands.drop) := by
  simp only [initBody, hlen, memReadBytes_written hkey]

/-- INIT on a written key of legal length and place completes with a new engine (40_command_cycle.md R87). -/
theorem exec_init_written {s : State} {key : List Byte} (pass : check .init s = .none)
    (hlen : s.operands.lenA.toNat = key.length) (hkey : s.dmem.holds s.operands.srcA.toNat key) :
    exec .init s = .next ((s.setEngine (newEngine key s.operands.drop)).complete .none) := by
  rw [exec_eq, runCommand_pass _ pass]
  simp only [bodyOf, initBody_written hlen hkey]

/-- The byte table `p` and the integer table `q` have the same 256 entries. -/
def Rc4.Represents (p : SBox) (q : Nat → Nat) : Prop := ∀ k : Byte, q k.toNat = (sboxGet p k).toNat

theorem Rc4.represents_identity : Rc4.Represents identitySBox fun k => k := fun k => by
  rw [sboxGet_identity]

theorem Rc4.represents_swap {p : SBox} {q : Nat → Nat} (h : Rc4.Represents p q) (a b : Byte) :
    Rc4.Represents (sboxSwap p a b) (Rc4.swap q a.toNat b.toNat) := fun k => by
  simp only [Rc4.swap, sboxGet_swap, Byte.toNat_inj_iff, h a, h b, h k]
  split
  · rfl
  · split <;> rfl

/-- Key scheduling, round by round: tables and accumulators agree (41_cipher.md R93). -/
theorem Rc4.scheduled_eq (key : List Byte) {r : Nat} (hr : r ≤ 256) :
    Rc4.Represents (loop (ksaRound key) r (identitySBox, 0)).1 (Rc4.scheduled (key.map BitVec.toNat) r).1 ∧
      (Rc4.scheduled (key.map BitVec.toNat) r).2 = (loop (ksaRound key) r (identitySBox, 0)).2.toNat := by
  induction r with
  | zero => exact ⟨Rc4.represents_identity, rfl⟩
  | succ r ih =>
    obtain ⟨table, acc⟩ := ih (by omega)
    have index : (BitVec.ofNat 8 r).toNat = r := Nat.mod_eq_of_lt hr
    have keyByte : (key.map BitVec.toNat).getD (r % key.length) 0 = (key.getD (r % key.length) 0).toNat :=
      List.getD_map (d := (0 : Byte)) ..
    have entry := table (BitVec.ofNat 8 r)
    rw [index] at entry
    have acc' : (Rc4.scheduled (key.map BitVec.toNat) (r + 1)).2 =
        (loop (ksaRound key) (r + 1) (identitySBox, 0)).2.toNat := by
      simp only [Rc4.scheduled, loop_succ, ksaRound, List.length_map, keyByte, acc, entry, BitVec.toNat_add,
        Nat.mod_add_mod, Nat.reducePow]
    refine ⟨?_, acc'⟩
    have swapped := Rc4.represents_swap table (BitVec.ofNat 8 r)
      (loop (ksaRound key) (r + 1) (identitySBox, 0)).2
    rw [index, ← acc'] at swapped
    exact swapped

theorem Rc4.ksa_represents (key : List Byte) :
    Rc4.Represents (ksa key) (Rc4.scheduled (key.map BitVec.toNat) 256).1 := by
  unfold ksa
  exact (Rc4.scheduled_eq key (Nat.le_refl 256)).1

/-- The engine's table and cursors are the integer ones. -/
structure Rc4.Simulates (e : Engine) (x : (Nat → Nat) × Nat × Nat) : Prop where
  table : Rc4.Represents e.sbox x.1
  cursorI : x.2.1 = e.i.toNat
  cursorJ : x.2.2 = e.j.toNat

/-- A keystream step keeps the simulation (41_cipher.md R94). -/
theorem Rc4.simulates_step {e : Engine} {key : List Nat} {n : Nat} (h : Rc4.Simulates e (Rc4.state key n)) :
    Rc4.Simulates (prgaStep e).2 (Rc4.state key (n + 1)) := by
  obtain ⟨table, cursorI, cursorJ⟩ := h
  have stepI : (Rc4.state key (n + 1)).2.1 = (prgaStep e).2.i.toNat := by
    simp [Rc4.state, prgaStep, cursorI]
  have entry := table (prgaStep e).2.i
  rw [← stepI] at entry
  have stepJ : (Rc4.state key (n + 1)).2.2 = (prgaStep e).2.j.toNat := by
    calc (Rc4.state key (n + 1)).2.2
        = ((Rc4.state key n).2.2 + (Rc4.state key n).1 (Rc4.state key (n + 1)).2.1) % 256 := rfl
      _ = (e.j.toNat + (sboxGet e.sbox (prgaStep e).2.i).toNat) % 256 := by rw [entry, cursorJ]
      _ = (prgaStep e).2.j.toNat := (BitVec.toNat_add ..).symm
  have swapped := Rc4.represents_swap table (prgaStep e).2.i (prgaStep e).2.j
  rw [← stepI, ← stepJ] at swapped
  exact ⟨swapped, stepI, stepJ⟩

/-- A new engine starts at the scheduled key with both cursors 0, and each keystream step follows RC4
(41_cipher.md R99, R94). -/
theorem Rc4.simulates_after (key : List Byte) (drop : Word) (n : Nat) :
    Rc4.Simulates ((newEngine key drop).after n) (Rc4.state (key.map BitVec.toNat) n) := by
  induction n with
  | zero => exact ⟨Rc4.ksa_represents key, rfl, rfl⟩
  | succ n ih => exact Rc4.simulates_step ih

/-- The output of a keystream step is read from the table and cursors after it (41_cipher.md R94). -/
theorem prgaStep_output (e : Engine) :
    (prgaStep e).1 = sboxGet (prgaStep e).2.sbox
      (sboxGet (prgaStep e).2.sbox (prgaStep e).2.i + sboxGet (prgaStep e).2.sbox (prgaStep e).2.j) := rfl

/-- The keystream of a new engine is the output of RC4 over exact integers (41_cipher.md R94, R97). -/
theorem newEngine_keystream (key : List Byte) (drop : Word) (n : Nat) :
    ((newEngine key drop).keystream n).toNat = Rc4.output (key.map BitVec.toNat) n := by
  obtain ⟨table, cursorI, cursorJ⟩ := Rc4.simulates_after key drop (n + 1)
  rw [Engine.after_succ] at table cursorI cursorJ
  simp only [Engine.keystream, Rc4.output]
  rw [prgaStep_output, cursorI, cursorJ, table, table, ← table, BitVec.toNat_add]

end Sys2Proof.Machine

open Sys2Proof Sys2Proof.Machine

/-- Settles O19: INIT on a written key leaves a new engine, whose table and cursors simulate integer RC4 at every
keystream step. -/
theorem cipherReproducesRc4 : Obligations.CipherReproducesRc4 := by
  intro s t key one_le le_256 hlen hfits hkey hexec n
  have pass : check .init s = .none := by
    rw [check_init, if_pos ⟨by omega, by omega⟩, if_pos hfits]
  rw [exec_init_written pass hlen hkey] at hexec
  cases hexec
  exact newEngine_keystream key s.operands.drop n
end

section
/-! PROOFS. The invariant (10_state.md R39, R34, R23; 20_memory.md R55; 42_bitops.md R113(d)). Each named update, each
loop iteration, each command, each transaction and each event keeps it; a step is one of them. -/

namespace Sys2Proof.Machine

/-! ## The engine -/

theorem Engine.reset_inv : Engine.reset.Inv where
  bijection := identity_bijective
  dropFinished h := by cases h
  dropPending _ := rfl
  unkeyed _ := rfl

theorem newEngine_inv (key : List Byte) (drop : Word) : (newEngine key drop).Inv where
  bijection := ksa_bijective key
  dropFinished h := by cases h
  dropPending _ := rfl
  unkeyed h := by cases h

/-- A keystream step keeps the invariant of a keyed engine: it permutes S and moves the cursors (41_cipher.md R94). -/
theorem Engine.Inv.prgaStep {e : Engine} (h : e.Inv) (keyed : e.keyed = true) : (prgaStep e).2.Inv where
  bijection := prgaStep_bijective h.bijection
  dropFinished := h.dropFinished
  dropPending := h.dropPending
  unkeyed unkeyed := by rw [prgaStep_keyed, keyed] at unkeyed; cases unkeyed

/-- The pending drop takes DROPPED from 0 to DROPCFG (41_cipher.md R96). -/
theorem doDrop_dropped {e : Engine} (h : e.Inv) : (doDrop e).dropped = e.dropcfg := by
  cases hd : e.dropDone
  · rw [doDrop_pending hd]
    simp only [h.dropPending hd, BitVec.zero_add, BitVec.ofNat_eq_ofNat]
  · rw [doDrop_done hd, h.dropFinished hd]

theorem Engine.Inv.doDrop {e : Engine} (h : e.Inv) (keyed : e.keyed = true) : (doDrop e).Inv where
  bijection := doDrop_bijective h.bijection
  dropFinished _ := by rw [doDrop_dropped h, doDrop_dropcfg]
  dropPending pending := by rw [doDrop_dropDone] at pending; cases pending
  unkeyed unkeyed := by rw [doDrop_keyed, keyed] at unkeyed; cases unkeyed

/-! ## The named updates -/

namespace State.Inv

variable {s : State} (h : s.Inv)
include h

theorem setIrqEn (b : Bool) : (s.setIrqEn b).Inv := { h with }
theorem setCmdLost (b : Bool) : (s.setCmdLost b).Inv := { h with }
theorem setOperands (o : Operands) : (s.setOperands o).Inv := { h with }
theorem setDraws (n : Nat) : (s.setDraws n).Inv := { h with }
theorem setInbox (es : List Event) : (s.setInbox es).Inv := { h with }
theorem respond (r : Response) : (s.respond r).Inv := { h with }
theorem setEngine {e : Engine} (he : e.Inv) : (s.setEngine e).Inv := { h with engine := he }

theorem setResult {v : Word} (hv : v.toNat ≤ 8 * s.params.dmemSize) : (s.setResult v).Inv :=
  { h with result := hv }

theorem setDmem {m : Memory} (canonical : m.wf) (inDmem : m.below s.params.dmemSize) : (s.setDmem m).Inv :=
  { h with canonical := canonical, inDmem := inDmem }

theorem issue (w : Word) : (s.issue w).Inv :=
  { h with
    busyFlags := fun _ => ⟨rfl, rfl⟩
    errCode := fun err => by cases err }

theorem complete (c : ErrCode) : (s.complete c).Inv :=
  { h with
    busyFlags := fun busy => by cases busy
    errCode := fun err => by simpa using err }

/-- Clearing DONE or ERR, as a STATUS write does (10_state.md R19). -/
theorem clearFlags (a b : Bool) : (s.setDoneErr (s.done && a) (s.err && b)).Inv :=
  { h with
    busyFlags := fun busy => by
      obtain ⟨done, err⟩ := h.busyFlags busy
      simp [done, err]
    errCode := fun err => h.errCode (Bool.and_eq_true_iff.mp err).1 }

theorem memRead (a : Nat) : (memRead a s).2.Inv := by
  obtain ⟨n, _, hn⟩ := memRead_state a s
  exact hn ▸ h.setDraws n

theorem memWrite {a : Nat} (v : Byte) (ha : a < s.params.dmemSize) : (memWrite a v s).Inv :=
  h.setDmem (Memory.store_wf h.canonical a v) (Memory.store_below h.inDmem v ha)

theorem memWriteBytes {n a : Nat} (w : Word) (ha : a + n ≤ s.params.dmemSize) : (memWriteBytes n a w s).Inv := by
  rw [memWriteBytes_state]
  exact h.setDmem (memWriteBytes_wf h.canonical n a w) (memWriteBytes_below h.inDmem w ha)

end State.Inv

/-- What a reset leaves meets the invariant when the parameters are legal (10_state.md R42). -/
theorem applyReset_inv {s : State} (h : s.params.wf = true) : s.applyReset.Inv where
  params := h
  engine := Engine.reset_inv
  canonical := List.Pairwise.nil
  inDmem _ hc := by cases hc
  busyFlags busy := by cases busy
  errCode err := by cases err
  result := Nat.zero_le _

theorem launched_inv {s : State} (h : s.launched) : s.Inv := by
  obtain ⟨legal, hs⟩ := h
  have : s.applyReset = s := by rw [hs]; rfl
  exact this ▸ applyReset_inv legal

/-! ## Commands -/

/-- What a passed check tells of the engine and the regions (40_command_cycle.md R85, R86). -/
theorem check_pass {i : Instr} {s : State} (h : check i s = .none) :
    (needsKey i = true → s.engine.keyed = true) ∧
      ∀ r ∈ regions i s.operands, r.1.toNat + r.2.toNat ≤ s.params.dmemSize := by
  simp only [check] at h
  split_ifs at h with noKey _ outside _
  refine ⟨fun needs => by simpa [needs] using noKey, ?_⟩
  simpa [inRange] using outside

theorem initBody_inv {s : State} (h : s.Inv) : (initBody s).Inv := by
  obtain ⟨key, d, _, _, hs⟩ := initBody_spec s
  exact hs ▸ (h.setEngine (newEngine_inv key _)).setDraws d

/-- What the byte loops of GEN and CRYPT carry: the invariant, a keyed engine, and the size of DMEM. -/
structure KeyedInv (size : Nat) (s : State) : Prop where
  inv : s.Inv
  keyed : s.engine.keyed = true
  size : s.params.dmemSize = size

theorem KeyedInv.afterDrop {n : Nat} {s : State} (h : KeyedInv n s) : KeyedInv n (s.setEngine (doDrop s.engine)) :=
  ⟨h.inv.setEngine (h.inv.engine.doDrop h.keyed), by simpa using h.keyed, h.size⟩

theorem KeyedInv.genByte {n dst k : Nat} {s : State} (h : KeyedInv n s) (hk : dst + k < n) :
    KeyedInv n (genByte dst k s) :=
  ⟨(h.inv.setEngine (h.inv.engine.prgaStep h.keyed)).memWrite _ (h.size.symm ▸ hk), h.keyed, h.size⟩

theorem KeyedInv.cryptByte {n src dst k : Nat} {s : State} (h : KeyedInv n s) (hk : dst + k < n) :
    KeyedInv n (cryptByte src dst k s) := by
  have stepped : (s.setEngine (Machine.prgaStep s.engine).2).Inv := h.inv.setEngine (h.inv.engine.prgaStep h.keyed)
  obtain ⟨d, _, hd⟩ := memRead_state (src + k) (s.setEngine (Machine.prgaStep s.engine).2)
  simp only [Machine.cryptByte, hd]
  exact ⟨(stepped.setDraws d).memWrite _ (h.size.symm ▸ hk), h.keyed, h.size⟩

theorem genBody_inv {s : State} (h : s.Inv) (pass : check .gen s = .none) : (genBody s).Inv := by
  obtain ⟨keyed, fits⟩ := check_pass pass
  have hdst := fits (s.operands.dst, s.operands.lenA) (by simp [regions])
  exact (loop_induct (fun _ => KeyedInv s.params.dmemSize) (KeyedInv.afterDrop ⟨h, keyed rfl, rfl⟩)
    fun k t hk ht => ht.genByte (by simp only at hdst; omega)).inv

theorem cryptBody_inv {s : State} (h : s.Inv) (pass : check .crypt s = .none) : (cryptBody s).Inv := by
  obtain ⟨keyed, fits⟩ := check_pass pass
  have hdst := fits (s.operands.dst, s.operands.lenA) (by simp [regions])
  exact (loop_induct (fun _ => KeyedInv s.params.dmemSize) (KeyedInv.afterDrop ⟨h, keyed rfl, rfl⟩)
    fun k t hk ht => ht.cryptByte (by simp only at hdst; omega)).inv

theorem flipByte_inv {src dst b k : Nat} {s : State} (h : s.Inv) (hk : dst + k < s.params.dmemSize) :
    (flipByte src dst b k s).Inv ∧ (flipByte src dst b k s).params = s.params := by
  obtain ⟨d, _, hd⟩ := memRead_state (src + k) s
  simp only [flipByte, hd]
  exact ⟨(h.setDraws d).memWrite _ hk, rfl⟩

theorem flipBody_inv {s : State} (h : s.Inv) (pass : check .flip s = .none) : (flipBody s).Inv := by
  have hdst := (check_pass pass).2 (s.operands.dst, s.operands.lenA) (by simp [regions])
  refine (loop_induct (fun _ (t : State) => t.Inv ∧ t.params = s.params) ⟨h, rfl⟩ fun k t hk ht => ?_).1
  obtain ⟨inv, size⟩ := ht
  have hk' : s.operands.dst.toNat + k < t.params.dmemSize := by rw [size]; simp only at hdst; omega
  obtain ⟨inv', size'⟩ := flipByte_inv inv hk'
  exact ⟨inv', size'.trans size⟩

/-- HAMM's RESULT is at most 8 for each byte of a region that lies in DMEM (42_bitops.md R113(d)). -/
theorem hammBody_inv {s : State} (h : s.Inv) (pass : check .hamm s = .none) : (hammBody s).Inv := by
  have ha := (check_pass pass).2 (s.operands.srcA, s.operands.lenA) (by simp [regions])
  let n := min s.operands.lenA.toNat s.operands.lenB.toNat
  obtain ⟨c, _, hc⟩ := hammLoop_state s.operands.srcA.toNat s.operands.srcB.toNat n 0 s
  have distance := hammLoop_le s.operands.srcA.toNat s.operands.srcB.toNat n s
  simp only [hammBody]
  rw [hc]
  refine (h.setDraws c).setResult ?_
  rw [BitVec.toNat_ofNat]
  refine (Nat.mod_le _ _).trans (distance.trans ?_)
  simp only [n, State.setDraws_params] at ha ⊢
  omega

theorem bodyOf_inv {i : Instr} {s : State} (h : s.Inv) (pass : check i s = .none) : (bodyOf i s).Inv := by
  cases i with
  | init => exact initBody_inv h
  | gen => exact genBody_inv h pass
  | crypt => exact cryptBody_inv h pass
  | flip => exact flipBody_inv h pass
  | hamm => exact hammBody_inv h pass

theorem runCommand_inv (i : Instr) {s : State} (h : s.Inv) : (runCommand i (bodyOf i) s).Inv := by
  by_cases pass : check i s = .none
  · rw [runCommand_pass _ pass]; exact (bodyOf_inv h pass).complete _
  · rw [runCommand_fail _ pass]; exact h.complete _

theorem sequencerMove_inv {s t : State} (h : s.Inv) (move : sequencerMove s = .next t) : t.Inv := by
  rcases sequencerMove_cases s with ⟨_, hs⟩ | ⟨_, i, _, _, hs⟩ | ⟨_, _, _, _, hs⟩
    <;> rw [hs] at move <;> cases move
  · exact h
  · exact runCommand_inv i h
  · exact h.complete _

/-! ## Transactions and steps -/

theorem writeReg_inv {s : State} (h : s.Inv) (r : Reg) (w : Word) : (writeReg r w s).Inv := by
  unfold writeReg
  split
  · exact h.setIrqEn _
  · exact (h.clearFlags _ _).setCmdLost _
  · unfold writeCmd
    split
    · exact h.setCmdLost _
    · exact h.issue w
  · split
    · exact h
    · exact h.setOperands _

/-- A legal DMEM_SIZE, a power of two from 256 on, is a multiple of 4 (00_scope.md R7). -/
theorem dmemSize_mod_four {p : Params} (h : p.wf = true) : p.dmemSize % 4 = 0 := by
  simp only [Params.wf, Params.dmemIsPowerOfTwo, Params.dmemInRange, Bool.and_eq_true, beq_iff_eq,
    decide_eq_true_eq] at h
  obtain ⟨⟨power, least, _⟩, _⟩ := h
  have : 2 ≤ p.dmemSize.log2 := (Nat.le_log2 (by omega)).mpr (by omega)
  rw [power]
  exact Nat.mod_eq_zero_of_dvd (pow_dvd_pow 2 this)

/-- An aligned access that begins in DMEM ends in DMEM (20_memory.md R51, R54). -/
theorem aligned_end_le {p : Params} (h : p.wf = true) {off a : Nat} {z : Size} (inWindow : off < p.windowSize)
    (legal : isBusError off z = false) (target : targetOf off = .dmem a) : a + z.bytes ≤ p.dmemSize := by
  have size := dmemSize_mod_four h
  unfold targetOf at target
  split_ifs at target
  simp only [Target.dmem.injEq] at target
  simp only [isBusError, Bool.or_eq_false_iff, bne_eq_false_iff_eq] at legal
  simp only [Params.windowSize] at inWindow
  cases z <;> simp only [Size.bytes] at legal ⊢ <;> omega

theorem busWrite_inv {s : State} (h : s.Inv) {off : Nat} {z : Size} (w : Word) (inWindow : off < s.params.windowSize)
    (legal : isBusError off z = false) : (busWrite off z w s).Inv := by
  unfold busWrite
  split
  · exact writeReg_inv h _ w
  · exact h
  · exact h
  · split
    · exact h
    · exact h.memWriteBytes w (aligned_end_le h.params inWindow legal ‹_›)

theorem access_inv (x : Txn) {s : State} (h : s.Inv) : (access x s).Inv := by
  rcases access_cases x s with ⟨_, e⟩ | ⟨off, decoded, ⟨_, e⟩ | ⟨legal, _, e⟩ | ⟨_, _, d, _, e⟩⟩ <;> rw [e]
  · exact h
  · exact h.respond _
  · exact (busWrite_inv h _ (windowOffset_lt decoded) legal).respond _
  · exact (h.setDraws d).respond _

theorem resetEdge_inv (o : Option Txn) {s : State} (h : s.Inv) : (resetEdge o s).Inv := by
  obtain ⟨d, rs, e⟩ := resetEdge_state o s
  rw [e]
  exact { applyReset_inv h.params with }

end Sys2Proof.Machine

open Sys2Proof Sys2Proof.Machine

/-- Settles O58: a step is a move of the sequencer, a transaction or a reset edge, and each keeps the invariant. -/
theorem stepKeepsTheInvariant : Obligations.StepKeepsTheInvariant := by
  intro s t h hstep
  rcases step_cases hstep with ⟨rest, _, move⟩ | ⟨x, rest, _, rfl⟩ | ⟨o, rest, _, rfl⟩
  · exact sequencerMove_inv (h.setInbox rest) move
  · exact access_inv x (h.setInbox rest)
  · exact resetEdge_inv o (h.setInbox rest)

/-- Settles O57: a launch state is what a reset leaves, with legal parameters. -/
theorem launchStatesMeetTheInvariant : Obligations.LaunchStatesMeetTheInvariant :=
  ⟨⟨by decide, rfl⟩, fun _ => launched_inv⟩
end

section
/-! PROOFS. Host accesses by what they name (20_memory.md R46, R56, R57; 10_state.md R17 to R37): the registers, the
reserved offsets, and the two windows, whose reads pack bytes little-endian. -/

namespace Sys2Proof.Machine

/-! ## Legal accesses of the window -/

theorem lt_windowSize {p : Params} {off : Nat} (h : off < 0x1000) : off < p.windowSize := by
  unfold Params.windowSize; omega

/-- A legal read answers what `busRead` gives (20_memory.md R46). -/
theorem hostRead_legal {z : Size} {off : Nat} {s : State} (inWindow : off < s.params.windowSize)
    (legal : isBusError off z = false) :
    hostRead z off s = (busRead off z s).2.respond (.readData (busRead off z s).1) := by
  simp [hostRead, readAt, access, windowOffset_base inWindow, legal]

/-- A legal write has the effect of `busWrite` (20_memory.md R46). -/
theorem hostWrite_legal {z : Size} {off : Nat} {s : State} (v : Word) (inWindow : off < s.params.windowSize)
    (legal : isBusError off z = false) : hostWrite z off v s = (busWrite off z v s).respond .writeAck := by
  simp [hostWrite, writeAt, access, windowOffset_base inWindow, legal]

/-! ## Registers -/

/-- Every register has a legal offset of its own (10_state.md, register map). -/
theorem offsetOf_spec (r : Reg) :
    targetOf (offsetOf r) = .reg r ∧ isBusError (offsetOf r) .b4 = false ∧ offsetOf r < 0x1000 := by
  cases r <;> decide

/-- Each register but the last of the map stands at one offset alone (10_state.md, register map). -/
theorem offsetOf_of_targetOf {off : Nat} {r : Reg} (target : targetOf off = .reg r) (notLast : r ≠ .dropped) :
    off = offsetOf r := by
  have map : ∀ off < 0x03C, regAt off ≠ .dropped → offsetOf (regAt off) = off := by decide
  unfold targetOf at target
  split_ifs at target with low
  cases target
  exact (map off low notLast).symm

/-- A legal access below 0x100 has 4 bytes (20_memory.md R52). -/
theorem size_of_legal {off : Nat} {z : Size} (legal : isBusError off z = false) (low : off < 0x100) : z = .b4 := by
  simp only [isBusError, Bool.or_eq_false_iff] at legal
  simpa [low] using legal.2

/-- A read of a register that is not a result register, or of any register while IDLE, returns its value
(20_memory.md R64). -/
theorem hostRead_reg {r : Reg} {s : State} (h : s.busy = false ∨ (Target.reg r).unspecifiedWhileBusy = false) :
    hostRead .b4 (offsetOf r) s = s.respond (.readData (readReg r s)) := by
  obtain ⟨target, legal, low⟩ := offsetOf_spec r
  have specified : ¬ (s.busy && (Target.reg r).unspecifiedWhileBusy) = true := by
    rcases h with h | h <;> simp [h]
  rw [hostRead_legal (lt_windowSize low) legal, busRead, target, if_neg specified]

theorem hostWrite_reg (r : Reg) (v : Word) (s : State) :
    hostWrite .b4 (offsetOf r) v s = (writeReg r v s).respond .writeAck := by
  obtain ⟨target, legal, low⟩ := offsetOf_spec r
  rw [hostWrite_legal v (lt_windowSize low) legal, busWrite, target]

/-- The registers that ignore every write (10_state.md R17, R31 to R34). -/
def Reg.readOnly (r : Reg) : Bool :=
  match r with
  | .id => true
  | .result => true
  | .cursors => true
  | .dropcfg => true
  | .dropped => true
  | _ => false

theorem writeReg_readOnly {r : Reg} (h : r.readOnly = true) (v : Word) (s : State) : writeReg r v s = s := by
  cases r <;> first | exact ite_self s | cases h

/-- Below the windows only CTRL, STATUS, CMD and the operand registers take a write; SBOX and the reserved offsets
take none either (10_state.md R35, R37). -/
theorem busWrite_ignored {off : Nat} {z : Size} (v : Word) (s : State) (low : off < 0x1000)
    (h : off = 0 ∨ 0x02C ≤ off) : busWrite off z v s = s := by
  have map : ∀ off < 0x03C, off = 0 ∨ 0x02C ≤ off → (regAt off).readOnly = true := by decide
  by_cases inMap : off < 0x03C
  · simp only [busWrite, targetOf, if_pos inMap]
    exact writeReg_readOnly (map off inMap h) v s
  · simp only [busWrite, targetOf, if_neg inMap]
    split_ifs <;> rfl

/-- A read of a reserved offset returns 0, also while BUSY (10_state.md R35, 20_memory.md R64). -/
theorem busRead_reserved {off : Nat} {z : Size} (s : State) (h : targetOf off = .reserved) :
    busRead off z s = (0, s) := by
  simp [busRead, h, Target.unspecifiedWhileBusy]

/-- Storing into one operand register leaves every other register of the map as it reads (10_state.md R28). -/
theorem readReg_writeOperand_other {r r' : Reg} (h : r' ≠ r) (v : Word) (s : State) :
    readReg r' (s.setOperands (writeOperand r v s.operands)) = readReg r' s := by
  cases r <;> cases r' <;> first | rfl | exact absurd rfl h

/-! ## Little-endian packing (20_memory.md R49) -/

/-- Byte k of a packed list is its element k. -/
theorem packLE_byte {bs : List Byte} {k : Nat} (hk : k < bs.length) (fits : bs.length ≤ 4) :
    (packLE bs).extractLsb' (8 * k) 8 = bs[k] := by
  induction bs generalizing k with
  | nil => cases hk
  | cons b bs ih =>
    cases k with
    | zero =>
      ext j hj
      simp [packLE, show j < 32 by omega, hj]
    | succ k =>
      rw [List.getElem_cons_succ, ← ih (by simpa using hk) (by simp at fits; omega)]
      simp only [List.length_cons] at hk fits
      ext j hj
      have outside : b.getLsbD (8 * (k + 1) + j) = false := BitVec.getLsbD_of_ge _ _ (by omega)
      simp [packLE, show 8 * (k + 1) + j < 32 by omega, outside, show ¬ 8 * (k + 1) + j < 8 by omega,
        show 8 * (k + 1) + j - 8 = 8 * k + j by omega,
        BitVec.getLsbD_eq_getElem (show 8 * k + j < 32 by omega)]

/-- A packed list has no bit above its bytes. -/
theorem packLE_lt (bs : List Byte) : (packLE bs).toNat < 2 ^ (8 * bs.length) := by
  induction bs with
  | nil => decide
  | cons b bs ih =>
    rw [packLE_cons_toNat, List.length_cons, Nat.mul_succ, Nat.pow_add]
    have := b.isLt
    refine (Nat.mod_le _ _).trans_lt ?_
    omega

/-! ## The windows -/

/-- A byte read takes a written byte as it stands and draws for an unwritten one (10_state.md R43, U1). -/
theorem memRead_eq (a : Nat) (s : State) :
    memRead a s = ((s.dmem.lookup a).getD (Config.freeByte s.draws),
      s.setDraws (s.draws + if (s.dmem.lookup a).isNone then 1 else 0)) := by
  cases h : s.dmem.lookup a with
  | none => exact memRead_unwritten h
  | some b => exact memRead_written h

theorem countP_range_succ_front (p : Nat → Bool) (n : Nat) :
    (List.range (n + 1)).countP p = (if p 0 then 1 else 0) + (List.range n).countP fun k => p (k + 1) := by
  rw [List.range_succ_eq_map, List.countP_cons, List.countP_map, Nat.add_comm]
  rfl

/-- The draws of a multi-byte read come one for each unwritten byte, in ascending order. -/
theorem memReadBytes_draws (n a : Nat) (s : State) :
    (memReadBytes n a s).2 =
      s.setDraws (s.draws + (List.range n).countP fun k => (s.dmem.lookup (a + k)).isNone) ∧
    ∀ k, k < n → (memReadBytes n a s).1[k]? = some ((s.dmem.lookup (a + k)).getD
      (Config.freeByte (s.draws + (List.range k).countP fun j => (s.dmem.lookup (a + j)).isNone))) := by
  induction n generalizing a s with
  | zero => exact ⟨rfl, fun k hk => by omega⟩
  | succ n ih =>
    obtain ⟨draws, bytes⟩ := ih (a + 1) (memRead a s).2
    have shift (k : Nat) : a + 1 + k = a + (k + 1) := by omega
    simp only [memRead_eq, State.setDraws_draws, State.setDraws_dmem, setDraws_setDraws, shift, Nat.add_assoc]
      at draws bytes
    simp only [memReadBytes, memRead_eq]
    refine ⟨?_, fun k hk => ?_⟩
    · rw [countP_range_succ_front]
      exact draws
    · cases k with
      | zero => rfl
      | succ k =>
        rw [countP_range_succ_front]
        exact bytes k (by omega)
@[simp] theorem sboxBytes_length (p : SBox) (k n : Nat) : (sboxBytes p k n).length = n := by simp [sboxBytes]

/-- An aligned access of a window is legal (20_memory.md R51, R52). -/
theorem isBusError_of_aligned {base k : Nat} {z : Size} (window : base % 4 = 0) (high : 0x100 ≤ base)
    (aligned : k % z.bytes = 0) : isBusError (base + k) z = false := by
  have sum : (base + k) % z.bytes = 0 := by
    cases z <;> simp only [Size.bytes] at aligned ⊢ <;> omega
  simp only [isBusError, sum, bne_self_eq_false, Bool.false_or, Bool.and_eq_false_iff, decide_eq_false_iff_not]
  omega

/-- A read of the SBOX window while IDLE packs the entries of S (10_state.md R37, 20_memory.md R56). -/
theorem hostRead_sbox {z : Size} {k : Nat} {s : State} (idle : s.seq = .idle) (inTable : k < 256)
    (aligned : k % z.bytes = 0) :
    hostRead z (0x100 + k) s = s.respond (.readData (packLE (sboxBytes s.engine.sbox k z.bytes))) := by
  have legal := isBusError_of_aligned (by decide) (Nat.le_refl 0x100) aligned
  have target : targetOf (0x100 + k) = .sbox k := by
    unfold targetOf
    rw [if_neg (by omega), if_neg (by omega), if_pos (by omega), Nat.add_sub_cancel_left]
  rw [hostRead_legal (lt_windowSize (by omega)) legal]
  simp [busRead, target, State.not_busy_iff.mpr idle]

/-- A read of the DMEM window while IDLE packs the bytes read in ascending order (20_memory.md R54, R56). -/
theorem hostRead_dmem {z : Size} {a : Nat} {s : State} (idle : s.seq = .idle) (inDmem : a < s.params.dmemSize)
    (aligned : a % z.bytes = 0) :
    hostRead z (0x1000 + a) s =
      (memReadBytes z.bytes a s).2.respond (.readData (packLE (memReadBytes z.bytes a s).1)) := by
  have legal := isBusError_of_aligned (base := 0x1000) (by decide) (by decide) aligned
  have target : targetOf (0x1000 + a) = .dmem a := by
    unfold targetOf
    rw [if_neg (by omega), if_neg (by omega), if_neg (by omega), if_neg (by omega), Nat.add_sub_cancel_left]
  rw [hostRead_legal (by unfold Params.windowSize; omega) legal]
  simp [busRead, target, State.not_busy_iff.mpr idle]

theorem size_bytes_le (z : Size) : z.bytes ≤ 4 := by cases z <;> decide

/-! ## STATUS -/

/-- STATUS above its six flags: ERRCODE from bit 8 on (10_state.md R19). -/
theorem statusWord_high (s : State) {n : Nat} (low : 6 ≤ n) (high : n < 32) :
    (statusWord s).getLsbD n = (decide (8 ≤ n) && s.errcode.bits.getLsbD (n - 8)) := by
  obtain ⟨n, rfl⟩ := Nat.exists_eq_add_of_le' low
  have above : decide (n + 6 < 8) = !decide (2 ≤ n) := by rw [← decide_not, decide_eq_decide]; omega
  simp [statusWord, high, above]

end Sys2Proof.Machine

open Sys2Proof Sys2Proof.Machine

/-- Settles O40: the register map at offset 0, a register that is readable while BUSY and read-only. -/
theorem idReadsItsConstant : Obligations.IdReadsItsConstant := fun s v =>
  ⟨hostRead_reg (r := .id) (.inr rfl),
   (hostWrite_reg .id v s).trans (by rw [writeReg_readOnly rfl])⟩

/-- Settles O41: the register map at offset 4, readable while BUSY. -/
theorem ctrlStoresOneBit : Obligations.CtrlStoresOneBit := fun s v =>
  ⟨hostWrite_reg .ctrl v s,
   (hostRead_reg (r := .ctrl) (.inr rfl)).trans (by cases h : s.irqEn <;> simp [readReg, ctrlWord, h]),
   rfl⟩

/-- Settles O43: a write stores the operand, which reads back, and every other register of the map reads as before. -/
theorem operandRegistersStoreAllBits : Obligations.OperandRegistersStoreAllBits := by
  intro s r v idle operand
  have notBusy := State.not_busy_iff.mpr idle
  have write : writeReg r v s = s.setOperands (writeOperand r v s.operands) := by
    revert operand
    cases r <;> simp [writeReg, notBusy]
  have same : readReg r (writeReg r v s) = v := by
    rw [write]
    revert operand
    cases r <;> simp [readReg, writeOperand]
  refine ⟨writeReg r v s, hostWrite_reg r v s, by rw [write]; rfl, same, fun r' other => ?_, ?_⟩
  · rw [write]; exact readReg_writeOperand_other other v s
  · have := hostRead_reg (r := r) (s := writeReg r v s) (.inl (by rw [write]; exact notBusy))
    rwa [same] at this

/-- Settles O47: the four result registers through the register map, with CURSORS cut into its three fields. -/
theorem idleReadsOfResultRegisters : Obligations.IdleReadsOfResultRegisters := by
  intro s idle
  have read (r : Reg) := hostRead_reg (r := r) (.inl (State.not_busy_iff.mpr idle))
  refine ⟨read .result, ⟨cursorsWord s, read .cursors, ?_, ?_, ?_⟩, read .dropcfg, read .dropped⟩
  · ext j hj
    simp [cursorsWord, hj, show j < 32 by omega]
  · ext j hj
    simp [cursorsWord, hj, show 8 + j < 32 by omega]
  · ext j hj
    simp [cursorsWord, show 16 + j < 32 by omega, BitVec.getLsbD_of_ge s.engine.i (16 + j) (by omega),
      BitVec.getLsbD_of_ge s.engine.j (16 + j - 8) (by omega)]

/-- Settles O44: the ignored writes and the reserved reads by what their offsets name. -/
theorem readOnlyAndReservedIgnoreWrites : Obligations.ReadOnlyAndReservedIgnoreWrites := by
  refine ⟨fun s => hostRead_reg (r := .cmd) (.inr rfl), fun s z off v legal low => ⟨fun ignored => ?_, fun h => ?_⟩⟩
  · rw [hostWrite_legal v (lt_windowSize low) legal, busWrite_ignored v s low ignored]
  · have target : targetOf off = .reserved := by
      unfold targetOf
      split_ifs <;> first | rfl | omega
    rw [hostRead_legal (lt_windowSize low) legal, busRead_reserved s target]

/-- Settles O42: the six flags bit by bit, and above them ERRCODE alone. -/
theorem statusReadsAndClears : Obligations.StatusReadsAndClears := by
  intro s v
  refine ⟨⟨statusWord s, hostRead_reg (r := .status) (.inr rfl), ?_⟩, hostWrite_reg .status v s, by decide⟩
  have errcode : (statusWord s).extractLsb' 8 4 = s.errcode.bits := by
    ext j hj
    simp [statusWord_high s (show 6 ≤ 8 + j by omega) (by omega), BitVec.getLsbD_eq_getElem hj]
  refine ⟨by simp [statusWord], by simp [statusWord], by simp [statusWord], by simp [statusWord],
    by simp [statusWord], by simp [statusWord], ?_, ?_, ?_⟩
  · ext j hj
    simp [statusWord_high s (show 6 ≤ 6 + j by omega) (by omega), show ¬ 8 ≤ 6 + j by omega]
  · rw [errcode]
    cases s.errcode <;> rfl
  · ext j hj
    simp [statusWord_high s (show 6 ≤ 12 + j by omega) (by omega),
      BitVec.getLsbD_of_ge s.errcode.bits (12 + j - 8) (by omega)]

/-- Settles O54: the window packs entries of S, and byte m of a packed list is its element m. -/
theorem sboxWindowReadsTheTable : Obligations.SboxWindowReadsTheTable := by
  intro s z k idle inTable aligned
  refine ⟨_, hostRead_sbox idle inTable aligned, fun m hm => ?_, ?_⟩
  · rw [packLE_byte (by rwa [sboxBytes_length]) (by rw [sboxBytes_length]; exact size_bytes_le z)]
    simp [sboxBytes]
  · simpa using packLE_lt (sboxBytes s.engine.sbox k z.bytes)

/-- Settles O53: the window packs the bytes read, of which each unwritten one draws. -/
theorem unwrittenBytesReadFree : Obligations.UnwrittenBytesReadFree := by
  intro s z a idle aligned inDmem
  obtain ⟨draws, bytes⟩ := memReadBytes_draws z.bytes a s
  refine ⟨_, (hostRead_dmem idle inDmem aligned).trans (by rw [draws]), fun k hk => ?_, ?_⟩
  · rw [packLE_byte (by rwa [memReadBytes_length]) (by rw [memReadBytes_length]; exact size_bytes_le z)]
    exact List.getElem_eq_iff _ |>.mpr (bytes k hk)
  · simpa using packLE_lt (memReadBytes z.bytes a s).1

/-- Settles O4: each value of the reset state by evaluation, S entry by entry. -/
theorem resetLeavesTheListedValues : Obligations.ResetLeavesTheListedValues := by
  unfold Obligations.ResetLeavesTheListedValues
  refine ⟨rfl, rfl, by decide, by decide, rfl, rfl, rfl, rfl, rfl, rfl, rfl, rfl, rfl, rfl, rfl, rfl, sboxGet_identity,
    fun _ => rfl, rfl⟩
end

section
/-! PROOFS. Which steps change the results, the cipher state and CMD_LOST (10_state.md R23 to R25, R31 to R38). A
command body leaves the control part of the state alone, and each command has its own few results. -/

namespace Sys2Proof.Machine

/-! ## What the command bodies change -/

/-- No body touches the control part of the state (40_command_cycle.md R87). -/
theorem bodyOf_control (i : Instr) (s : State) : (bodyOf i s).control = s.control := by
  cases i with
  | init =>
    obtain ⟨_, _, _, _, e⟩ := initBody_spec s
    simp only [bodyOf, e]
    rfl
  | gen => exact (genLoop_spec _ _ _).1
  | crypt => exact loop_keeps State.control (fun k t => (cryptByte_spec _ _ k t).1) _ _
  | flip => exact loop_keeps State.control (fun k t => (flipByte_spec _ _ _ k t).1) _ _
  | hamm =>
    obtain ⟨_, _, e⟩ := hammLoop_state s.operands.srcA.toNat s.operands.srcB.toNat
      (min s.operands.lenA.toNat s.operands.lenB.toNat) 0 s
    simp only [bodyOf, hammBody, e]
    rfl

theorem bodyOf_cmdLost (i : Instr) (s : State) : (bodyOf i s).cmdLost = s.cmdLost := by
  obtain ⟨_, _, _, _, _, e, _⟩ := State.control_eq (bodyOf_control i s)
  exact e

/-- Only HAMM writes RESULT (10_state.md R31). -/
theorem bodyOf_result {i : Instr} (h : i ≠ .hamm) (s : State) : (bodyOf i s).result = s.result := by
  cases i with
  | init =>
    obtain ⟨_, _, _, _, e⟩ := initBody_spec s
    simp only [bodyOf, e, State.setDraws_result, State.setEngine_result]
  | gen => exact (genLoop_spec _ _ _).2.1
  | crypt => exact loop_keeps State.result (fun k t => (cryptByte_spec _ _ k t).2.1) _ _
  | flip => exact loop_keeps State.result (fun k t => (flipByte_spec _ _ _ k t).2.1) _ _
  | hamm => exact absurd rfl h

/-- What each command may make of the engine (41_cipher.md R100, R102, R104; 42_bitops.md R115). -/
def Engine.Becomes (i : Instr) (e e' : Engine) : Prop :=
  match i with
  | .init => ∃ key drop, e' = newEngine key drop
  | .gen => ∃ n, e' = (doDrop e).after n
  | .crypt => ∃ n, e' = (doDrop e).after n
  | .flip => e' = e
  | .hamm => e' = e

theorem bodyOf_engine (i : Instr) (s : State) : Engine.Becomes i s.engine (bodyOf i s).engine := by
  cases i with
  | init =>
    obtain ⟨key, _, _, _, e⟩ := initBody_spec s
    exact ⟨key, s.operands.drop, by simp only [bodyOf, e, State.setDraws_engine, State.setEngine_engine]⟩
  | gen => exact ⟨_, (genLoop_spec _ _ _).2.2.2.1⟩
  | crypt => exact ⟨_, cryptLoop_engine _ _ _ _⟩
  | flip => exact loop_keeps State.engine (fun k t => (flipByte_spec _ _ _ k t).2.2.2.1) _ _
  | hamm =>
    obtain ⟨_, _, e⟩ := hammLoop_state s.operands.srcA.toNat s.operands.srcB.toNat
      (min s.operands.lenA.toNat s.operands.lenB.toNat) 0 s
    simp only [bodyOf, hammBody, e, Engine.Becomes, State.setResult_engine, State.setDraws_engine]

/-! ## Results -/

/-- A sequencer's move leaves the results alone, unless it is the completion of a command that passes its checks. -/
theorem sequencerMove_results {s t : State} (move : sequencerMove s = .next t) :
    (t.engine = s.engine ∧ t.result = s.result) ∨
    ∃ w i, s.seq = .busy w ∧ decode w = .ok i ∧ check i s = .none ∧
      Engine.Becomes i s.engine t.engine ∧ (i ≠ .hamm → t.result = s.result) := by
  rcases sequencerMove_cases s with ⟨_, e⟩ | ⟨w, i, busy, decoded, e⟩ | ⟨_, _, _, _, e⟩
    <;> rw [e] at move <;> cases move
  · exact .inl ⟨rfl, rfl⟩
  · by_cases pass : check i s = .none
    · rw [runCommand_pass _ pass]
      exact .inr ⟨w, i, busy, decoded, pass, bodyOf_engine i s, fun h => bodyOf_result h s⟩
    · rw [runCommand_fail _ pass]
      exact .inl ⟨rfl, rfl⟩
  · exact .inl ⟨rfl, rfl⟩

/-- A step that is no reset leaves the results alone, or completes a command that passes its checks: an INIT, which
makes a new engine; a GEN or CRYPT, which advances it; a HAMM. -/
theorem step_results {s t : State} (hstep : step s = .next t) (noReset : ¬ s.resetting) :
    (t.engine = s.engine ∧ t.result = s.result) ∨
    (s.passing .init ∧ (∃ key drop, t.engine = newEngine key drop) ∧ t.result = s.result) ∨
    ((s.passing .gen ∨ s.passing .crypt) ∧ (∃ n, t.engine = (doDrop s.engine).after n) ∧ t.result = s.result) ∨
    (s.passing .hamm ∧ t.engine = s.engine) := by
  rcases step_cases hstep with ⟨rest, next, move⟩ | ⟨x, rest, _, rfl⟩ | ⟨o, rest, next, _⟩
  · rcases sequencerMove_results move with same | ⟨w, i, busy, decoded, checked, becomes, result⟩
    · exact .inl same
    · have moves : s.inbox = [] ∨ s.inbox.head? = some .complete := by
        rcases next with ⟨nil, _⟩ | cons
        · exact .inl nil
        · exact .inr (by rw [cons]; rfl)
      have pass : s.passing i := ⟨⟨w, busy, decoded, moves⟩, checked⟩
      cases i with
      | init => exact .inr (.inl ⟨pass, becomes, result (by decide)⟩)
      | gen => exact .inr (.inr (.inl ⟨.inl pass, becomes, result (by decide)⟩))
      | crypt => exact .inr (.inr (.inl ⟨.inr pass, becomes, result (by decide)⟩))
      | flip => exact .inl ⟨becomes, result (by decide)⟩
      | hamm => exact .inr (.inr (.inr ⟨pass, becomes⟩))
  · obtain ⟨_, _, result, engine, _⟩ := access_keeps x (s.setInbox rest)
    exact .inl ⟨engine, result⟩
  · exact absurd ⟨o, by rw [next]; rfl⟩ noReset

/-- The fields of an engine after the pending drop and n keystream steps. -/
theorem after_doDrop_fields (e : Engine) (n : Nat) :
    ((doDrop e).after n).keyed = e.keyed ∧ ((doDrop e).after n).dropcfg = e.dropcfg ∧
      ((doDrop e).after n).dropDone = true ∧
      (e.dropDone = true → ((doDrop e).after n).dropped = e.dropped) ∧
      (e.dropDone = false → ((doDrop e).after n).dropped = e.dropped + e.dropcfg) := by
  refine ⟨by simp, by simp, by simp, fun done => ?_, fun pending => ?_⟩
  · rw [Engine.after_dropped, doDrop_done done]
  · rw [Engine.after_dropped, doDrop_pending pending]

/-! ## CMD_LOST -/

theorem sequencerMove_cmdLost {s t : State} (move : sequencerMove s = .next t) : t.cmdLost = s.cmdLost := by
  rcases sequencerMove_cases s with ⟨_, e⟩ | ⟨_, i, _, _, e⟩ | ⟨_, _, _, _, e⟩
    <;> rw [e] at move <;> cases move
  · rfl
  · by_cases pass : check i s = .none
    · rw [runCommand_pass _ pass]; exact bodyOf_cmdLost i s
    · rw [runCommand_fail _ pass]; rfl
  · rfl

/-- The two writes that change CMD_LOST (10_state.md R25). -/
theorem writeReg_cmdLost {r : Reg} {w : Word} {s : State} (h : (writeReg r w s).cmdLost ≠ s.cmdLost) :
    (r = .cmd ∧ (writeReg r w s).cmdLost = true ∧ s.busy = true) ∨
    (r = .status ∧ (writeReg r w s).cmdLost = false ∧ w.getLsbD 5 = true) := by
  unfold writeReg at h ⊢
  split at h
  · exact absurd rfl h
  · refine .inr ⟨rfl, ?_⟩
    cases lost : s.cmdLost <;> simp_all [writeStatus]
  · refine .inl ⟨rfl, ?_⟩
    unfold writeCmd at h ⊢
    split at h
    · rename_i busy; simp [busy]
    · exact absurd rfl h
  · split at h <;> exact absurd rfl h

theorem busWrite_cmdLost {off : Nat} {z : Size} {w : Word} {s : State}
    (h : (busWrite off z w s).cmdLost ≠ s.cmdLost) :
    (targetOf off = .reg .cmd ∧ (busWrite off z w s).cmdLost = true ∧ s.busy = true) ∨
    (targetOf off = .reg .status ∧ (busWrite off z w s).cmdLost = false ∧ w.getLsbD 5 = true) := by
  unfold busWrite at h ⊢
  split at h
  · rename_i r target
    simpa [target] using writeReg_cmdLost h
  · exact absurd rfl h
  · exact absurd rfl h
  · split at h
    · exact absurd rfl h
    · rw [memWriteBytes_state] at h; exact absurd rfl h

end Sys2Proof.Machine

open Sys2Proof Sys2Proof.Machine

/-- Settles O59: only the completion of a command that passes its checks changes a result, and each command has
its own. -/
theorem onlyCommandsAndResetChangeResults : Obligations.OnlyCommandsAndResetChangeResults := by
  intro s t hstep noReset
  rcases step_results hstep noReset with
    ⟨engine, result⟩ | ⟨init, ⟨key, drop, e⟩, result⟩ | ⟨run, ⟨n, e⟩, result⟩ | ⟨hamm, engine⟩
  · rw [engine, result]
    simp_all
  · rw [e, result]
    simp [init, newEngine]
  · obtain ⟨keyed, dropcfg, dropDone, done, pending⟩ := after_doDrop_fields s.engine n
    rw [← e] at keyed dropcfg dropDone done pending
    cases drop : s.engine.dropDone <;> simp_all
  · rw [engine]
    simp_all

/-- Settles O60: a step that changes CMD_LOST is a register write, of CMD while BUSY or of STATUS with bit 5. -/
theorem cmdLostIsSticky : Obligations.CmdLostIsSticky := by
  intro s t hstep noReset changed
  rcases step_cases hstep with ⟨rest, _, move⟩ | ⟨x, rest, next, rfl⟩ | ⟨o, rest, next, _⟩
  · exact absurd (sequencerMove_cmdLost move) changed
  · rcases access_cases x (s.setInbox rest) with
      ⟨_, e⟩ | ⟨off, decoded, ⟨_, e⟩ | ⟨legal, write, e⟩ | ⟨_, _, d, _, e⟩⟩ <;> rw [e] at changed ⊢
    · exact absurd rfl changed
    · exact absurd rfl changed
    · refine ⟨x, by rw [next]; rfl, write, ?_⟩
      rcases busWrite_cmdLost changed with ⟨target, lost, busy⟩ | ⟨target, lost, bit⟩
        <;> obtain rfl := offsetOf_of_targetOf target (by decide)
      · exact ⟨size_of_legal legal (by decide), .inl ⟨lost, busy, decoded⟩⟩
      · exact ⟨size_of_legal legal (by decide), .inr ⟨lost, bit, decoded⟩⟩
    · exact absurd rfl changed
  · exact absurd ⟨o, by rw [next]; rfl⟩ noReset
end

section
/-! PROOFS. One program, one final state (70_reset_and_hazards.md R149, R150; log entry 20). The idea: in each state of
a run, let the command that is running, if any, complete at once (`State.settled`). A completion point and a host read
do not change the settled state. A host write or a reset changes it by a function of the settled state alone
(`Event.effect`): under the launch premises such an event either finds the block IDLE, or is one that a running command
and its completion do not touch. So the final state is the fold of the effects over the program's writes and resets,
wherever the completions fall. -/

namespace Sys2Proof.Machine

/-! ## The fields that no command reads or writes, but for draws -/

/-- `s` with other values of IRQ_EN and of the model's own draw counter, events and responses. -/
def State.aside (s : State) (b : Bool) (d : Nat) (es : List Event) (rs : List Response) : State :=
  { s with irqEn := b, draws := d, inbox := es, responses := rs }

theorem architectural_eq_aside (s : State) : s.architectural = s.aside s.irqEn 0 [] [] := rfl

section
variable (i : Instr) (s : State) (b : Bool) (d : Nat) (es : List Event) (rs : List Response)

@[simp] theorem State.aside_seq : (s.aside b d es rs).seq = s.seq := rfl

theorem check_aside : check i (s.aside b d es rs) = check i s := check_congr i rfl

theorem complete_aside (c : ErrCode) : (s.aside b d es rs).complete c = (s.complete c).aside b d es rs := rfl

variable {i s}

/-- A body on written inputs neither reads nor changes these fields (10_state.md R43). -/
theorem bodyOf_aside (written : inputsWritten i s) :
    bodyOf i (s.aside b d es rs) = (bodyOf i s).aside b d es rs := by
  obtain ⟨core, _⟩ := body_congr i (s := s) (t := s.aside b d es rs) rfl written
  obtain ⟨_, draws⟩ := body_congr i (s := s.aside b d es rs) (t := s) rfl written
  refine State.ext_core core.symm ?_ draws
  rw [bodyOf_control]
  simp [State.control, State.aside, State.control_eq (bodyOf_control i s)]

theorem runCommand_aside (written : check i s = .none → inputsWritten i s) :
    runCommand i (bodyOf i) (s.aside b d es rs) = (runCommand i (bodyOf i) s).aside b d es rs := by
  by_cases pass : check i s = .none
  · rw [runCommand_pass _ pass, runCommand_pass _ ((check_aside ..).trans pass), bodyOf_aside _ _ _ _ (written pass),
      complete_aside]
  · rw [runCommand_fail _ pass, runCommand_fail _ (by rwa [check_aside]), check_aside, complete_aside]

end

/-- A command on written inputs draws nothing, and does the same at any value of the draw counter. -/
theorem exec_written {i : Instr} {s t : State} (written : inputsWritten i s) (hexec : exec i s = .next t) :
    t.draws = s.draws ∧ ∀ n, exec i (s.setDraws n) = .next (t.setDraws n) := by
  have run b d es rs := runCommand_aside b d es rs fun _ => written
  have same : runCommand i (bodyOf i) s =
      (runCommand i (bodyOf i) s).aside s.irqEn s.draws s.inbox s.responses := run ..
  rw [exec_eq] at hexec
  cases hexec
  refine ⟨by rw [same]; rfl, fun n => ?_⟩
  rw [exec_eq]
  congr 1
  calc runCommand i (bodyOf i) (s.setDraws n)
      = (runCommand i (bodyOf i) s).aside s.irqEn n s.inbox s.responses := run ..
    _ = ((runCommand i (bodyOf i) s).aside s.irqEn s.draws s.inbox s.responses).setDraws n := rfl
    _ = (runCommand i (bodyOf i) s).setDraws n := by rw [← same]

/-- A completion leaves the parameters, IRQ_EN and the events to come. -/
theorem runCommand_keeps (i : Instr) (s : State) :
    (runCommand i (bodyOf i) s).params = s.params ∧ (runCommand i (bodyOf i) s).irqEn = s.irqEn ∧
      (runCommand i (bodyOf i) s).inbox = s.inbox := by
  by_cases pass : check i s = .none
  · obtain ⟨params, _, irqEn, _, _, _, _, _, inbox, _⟩ := State.control_eq (bodyOf_control i s)
    rw [runCommand_pass _ pass]
    exact ⟨params, irqEn, inbox⟩
  · rw [runCommand_fail _ pass]
    exact ⟨rfl, rfl, rfl⟩

/-! ## The settled state -/

/-- The state once the running command, if any, has completed. -/
def State.settled (s : State) : State := eventResult .complete s

theorem settled_of_move {s t : State} (move : sequencerMove s = .next t) : s.settled = t := by
  simp [State.settled, eventResult, handleEvent, move]

theorem settled_of_idle {s : State} (idle : s.seq = .idle) : s.settled = s :=
  settled_of_move (by simp [sequencerMove, idle])

/-- The command that is running reads written bytes only, if it passes its checks. -/
def State.inputsReady (s : State) : Prop :=
  ∀ w i, s.seq = .busy w → decode w = .ok i → check i s = .none → inputsWritten i s

theorem settled_seq (s : State) : s.settled.seq = .idle := by
  rcases sequencerMove_cases s with ⟨idle, e⟩ | ⟨_, _, _, _, e⟩ | ⟨_, _, _, _, e⟩ <;> rw [settled_of_move e]
  · exact idle
  · rfl
  · rfl

theorem settled_keeps (s : State) :
    s.settled.params = s.params ∧ s.settled.irqEn = s.irqEn ∧ s.settled.inbox = s.inbox := by
  rcases sequencerMove_cases s with ⟨_, e⟩ | ⟨_, i, _, _, e⟩ | ⟨_, _, _, _, e⟩ <;> rw [settled_of_move e]
  · exact ⟨rfl, rfl, rfl⟩
  · exact runCommand_keeps i s
  · exact ⟨rfl, rfl, rfl⟩

/-- Settling does not look at the fields aside (10_state.md R43). -/
theorem settled_aside {s : State} (ready : s.inputsReady) (b : Bool) (d : Nat) (es : List Event)
    (rs : List Response) : (s.aside b d es rs).settled = s.settled.aside b d es rs := by
  rcases sequencerMove_cases s with ⟨idle, e⟩ | ⟨w, i, busy, decoded, e⟩ | ⟨w, x, busy, decoded, e⟩
    <;> rw [settled_of_move e]
  · exact settled_of_idle idle
  · refine settled_of_move ?_
    simp only [sequencerMove, State.aside_seq, busy, decoded, exec_eq, runCommand_aside b d es rs (ready w i busy decoded)]
  · refine settled_of_move ?_
    simp only [sequencerMove, State.aside_seq, busy, decoded, complete_aside]

/-! ## Events on architecturally equal states -/

@[simp] theorem architectural_architectural (s : State) : s.architectural.architectural = s.architectural := rfl

theorem architectural_settled {s : State} (ready : s.inputsReady) :
    s.architectural.settled.architectural = s.settled.architectural := by
  obtain ⟨_, irqEn, _⟩ := settled_keeps s
  rw [architectural_eq_aside s, settled_aside ready, ← irqEn]
  rfl

theorem memWriteBytes_architectural (n a : Nat) (w : Word) (s : State) :
    memWriteBytes n a w s.architectural = (memWriteBytes n a w s).architectural :=
  loop_rel (fun u v : State => u = v.architectural) rfl fun k u v _ h => by rw [h]; rfl

theorem writeReg_architectural (r : Reg) (w : Word) (s : State) :
    writeReg r w s.architectural = (writeReg r w s).architectural := by
  have busy : s.architectural.busy = s.busy := rfl
  cases r <;> simp only [writeReg, writeCmd, busy] <;> first | rfl | (split <;> rfl)

theorem busWrite_architectural (off : Nat) (z : Size) (w : Word) (s : State) :
    busWrite off z w s.architectural = (busWrite off z w s).architectural := by
  have busy : s.architectural.busy = s.busy := rfl
  unfold busWrite
  split
  · exact writeReg_architectural _ w s
  · rfl
  · rfl
  · rw [busy]
    split
    · rfl
    · exact memWriteBytes_architectural _ _ w s

theorem access_architectural (x : Txn) (s : State) :
    (access x s.architectural).architectural = (access x s).architectural := by
  cases hw : x.write with
  | false =>
    obtain ⟨d, rs, e⟩ := access_read hw s
    obtain ⟨d', rs', e'⟩ := access_read hw s.architectural
    rw [e, e']
    rfl
  | true =>
    unfold access
    simp only [show s.architectural.params = s.params from rfl, hw, if_true]
    split
    · rfl
    · split
      · rfl
      · rw [busWrite_architectural]
        rfl

theorem resetEdge_architectural (o : Option Txn) (s : State) :
    (resetEdge o s).architectural = { State.reset with params := s.params } := by
  obtain ⟨d, rs, e⟩ := resetEdge_state o s
  rw [e]
  rfl

/-- IRQ_EN after a transaction that touches at most CTRL. -/
def Txn.irqEnAfter (x : Txn) (p : Params) (b : Bool) : Bool :=
  if x.write = true ∧ x.target p = some (.reg .ctrl) then x.wdata.getLsbD 0 else b

theorem irqEnAfter_ctrl {x : Txn} {p : Params} (write : x.write = true) (target : x.target p = some (.reg .ctrl))
    (b : Bool) : x.irqEnAfter p b = x.wdata.getLsbD 0 := if_pos ⟨write, target⟩

theorem irqEnAfter_other {x : Txn} {p : Params} (h : x.write = true → x.target p ≠ some (.reg .ctrl)) (b : Bool) :
    x.irqEnAfter p b = b := if_neg fun ⟨write, target⟩ => h write target

/-- A transaction whose effect is one whether a command still runs or not (log entry 20). -/
def Txn.quiet (x : Txn) (p : Params) : Prop :=
  ∀ t, x.write = true → x.target p = some t → t ≠ .reg .cmd ∧ t.dependsOnLatency = false

/-- The registers whose writes do not depend on the latency are CTRL, CMD and the read-only ones. -/
theorem reg_of_independent {r : Reg} (notCmd : r ≠ .cmd) (h : (Target.reg r).dependsOnLatency = false) :
    r = .ctrl ∨ r.readOnly = true := by
  cases r <;> simp_all [Target.dependsOnLatency, Reg.readOnly]

/-- A quiet transaction changes IRQ_EN at most, while BUSY and while IDLE. -/
theorem access_quiet {x : Txn} {s : State} (quiet : x.quiet s.params) :
    (access x s).architectural = s.architectural.setIrqEn (x.irqEnAfter s.params s.irqEn) := by
  cases write : x.write with
  | false =>
    obtain ⟨d, rs, e⟩ := access_read write s
    rw [e, irqEnAfter_other (by simp [write])]
    rfl
  | true =>
    cases target : x.target s.params with
    | none =>
      obtain ⟨rs, e⟩ := access_nothing target
      rw [e, irqEnAfter_other (by simp [target])]
      rfl
    | some t =>
      obtain ⟨notCmd, independent⟩ := quiet t write target
      rw [access_write write target]
      cases t with
      | reg r =>
        rcases reg_of_independent (fun h => notCmd (by rw [h])) independent with rfl | ignored
        · rw [irqEnAfter_ctrl write target]
          rfl
        · have notCtrl : r ≠ .ctrl := fun h => by rw [h] at ignored; cases ignored
          rw [irqEnAfter_other (by simp [target, notCtrl])]
          simp only [writeReg_readOnly ignored]
          rfl
      | reserved => rw [irqEnAfter_other (by simp [target])]; rfl
      | sbox k => rw [irqEnAfter_other (by simp [target])]; rfl
      | dmem a => cases independent

/-! ## Runs -/

/-- What a run keeps beside the host's knowledge: while a command is running the host has its completion still to
observe, DONE is 0 (40_command_cycle.md R82), and the command reads written bytes only. -/
structure State.Tracked (waiting : Bool) (s : State) : Prop where
  waits : s.busy = true → waiting = true
  notDone : s.busy = true → s.done = false
  ready : s.inputsReady

theorem State.Tracked.of_idle {s : State} (idle : s.seq = .idle) (waiting : Bool) : s.Tracked waiting where
  waits busy := by simp [State.not_busy_iff.mpr idle] at busy
  notDone busy := by simp [State.not_busy_iff.mpr idle] at busy
  ready w i busy := by rw [idle] at busy; cases busy

/-- Whether the running command's inputs are ready depends on SEQ and the core alone. -/
theorem inputsReady_congr {s t : State} (seq : s.seq = t.seq) (core : s.core = t.core) (h : t.inputsReady) :
    s.inputsReady := fun w i busy decoded pass =>
  (inputsWritten_congr i core).mpr (h w i (seq ▸ busy) decoded (check_congr i core ▸ pass))

/-- The conditions that the launch premises and log entry 20 put on one event of a run. -/
structure Event.Orderly (waiting : Bool) (e : Event) (s : State) : Prop where
  written : inputsWrittenAt e s = true
  serial : serialAt waiting e s = true
  prepares : preparesAt waiting e s = true

/-- While a command runs, an orderly transaction is quiet. -/
theorem quiet_of_busy {waiting : Bool} {x : Txn} {s : State} (tracked : s.Tracked waiting) (busy : s.busy = true)
    (orderly : Event.Orderly waiting (.txn x) s) : x.quiet s.params := by
  intro t write target
  obtain ⟨_, serial, prepares⟩ := orderly
  have toObserve : (waiting && !s.irq) = true := by
    simp [tracked.waits busy, State.irq, tracked.notDone busy]
  have goes : (Event.txn x).writeTarget s = some t := by simp [Event.writeTarget, write, target]
  simp only [serialAt, preparesAt, toObserve, goes] at serial prepares
  exact ⟨by simpa using serial, by simpa using prepares⟩

/-- Only a CMD write changes SEQ (10_state.md R27). -/
theorem writeReg_seq {r : Reg} (notCmd : r ≠ .cmd) (w : Word) (s : State) : (writeReg r w s).seq = s.seq := by
  unfold writeReg
  split
  · rfl
  · rfl
  · exact absurd rfl notCmd
  · split <;> rfl

/-- While IDLE only a CMD write makes the block BUSY (10_state.md R27). -/
theorem access_idle {x : Txn} {s : State} (idle : s.seq = .idle) :
    (access x s).seq = .idle ∨
    x.write = true ∧ x.target s.params = some (.reg .cmd) ∧ access x s = (s.issue x.wdata).respond .writeAck := by
  have notBusy := State.not_busy_iff.mpr idle
  cases write : x.write with
  | false =>
    obtain ⟨d, rs, e⟩ := access_read write s
    exact .inl (by rw [e]; exact idle)
  | true =>
    cases target : x.target s.params with
    | none =>
      obtain ⟨rs, e⟩ := access_nothing target
      exact .inl (by rw [e]; exact idle)
    | some t =>
      rw [access_write write target]
      cases t with
      | reg r =>
        by_cases cmd : r = .cmd
        · subst cmd
          exact .inr ⟨rfl, rfl, by simp [writeReg, writeCmd, notBusy]⟩
        · exact .inl ((writeReg_seq cmd x.wdata s).trans idle)
      | reserved => exact .inl idle
      | sbox k => exact .inl idle
      | dmem a =>
        left
        simp only [notBusy, Bool.false_eq_true, if_false]
        rw [memWriteBytes_state]
        exact idle

/-- An orderly event keeps a run tracked. -/
theorem tracked_eventResult {waiting : Bool} {e : Event} {s : State} (tracked : s.Tracked waiting)
    (orderly : e.Orderly waiting s) : (eventResult e s).Tracked (waitingAfter waiting e s) := by
  cases e with
  | complete => exact .of_idle (settled_seq s) _
  | rst o =>
    obtain ⟨d, rs, e⟩ := resetEdge_state o s
    exact .of_idle (by simp only [eventResult, handleEvent, e]; rfl) _
  | rstMidTxn x => exact tracked
  | txn x =>
    show (access x s).Tracked _
    cases busy : s.busy with
    | true =>
      have quiet := access_quiet (quiet_of_busy tracked busy orderly)
      have seq : (access x s).seq = s.seq := (congrArg State.seq quiet :)
      have done : (access x s).done = s.done := (congrArg State.done quiet :)
      have core : (access x s).core = s.core := (congrArg State.core quiet :)
      have waits : waitingAfter waiting (.txn x) s = true := by
        simp [waitingAfter, busy, tracked.waits busy, State.irq, tracked.notDone busy]
      exact ⟨fun _ => waits, fun _ => done.trans (tracked.notDone busy), inputsReady_congr seq core tracked.ready⟩
    | false =>
      rcases access_idle (x := x) (State.not_busy_iff.mp busy) with idle | ⟨write, target, e⟩
      · exact .of_idle idle _
      · rw [e]
        refine ⟨fun _ => by simp [waitingAfter, write, target, busy], fun _ => rfl, fun w i issued decoded pass => ?_⟩
        cases issued
        have written := orderly.written
        simp only [inputsWrittenAt, target, write, busy, decoded] at written
        have core : ((s.issue x.wdata).respond .writeAck).core = s.core := rfl
        rw [check_congr i core] at pass
        rw [inputsWritten_congr i core]
        simpa [pass] using written

/-- What an event does to a settled state. -/
def Event.effect (x : State) (e : Event) : State := (eventResult e x).architectural.settled.architectural

/-- An orderly event has its effect on the settled state. -/
theorem settled_eventResult {waiting : Bool} {e : Event} {s : State} (tracked : s.Tracked waiting)
    (orderly : e.Orderly waiting s) :
    (eventResult e s).settled.architectural = Event.effect s.settled.architectural e := by
  have idle : s.settled.architectural.seq = .idle := settled_seq s
  obtain ⟨params, irqEn, _⟩ := settled_keeps s
  rw [← architectural_settled (tracked_eventResult tracked orderly).ready, Event.effect]
  cases e with
  | complete =>
    show s.settled.architectural.settled.architectural =
      s.settled.architectural.settled.architectural.settled.architectural
    simp only [settled_of_idle idle, architectural_architectural]
  | rst o =>
    show (resetEdge o s).architectural.settled.architectural =
      (resetEdge o s.settled.architectural).architectural.settled.architectural
    rw [resetEdge_architectural, resetEdge_architectural, ← params]
    rfl
  | rstMidTxn x =>
    show s.architectural.settled.architectural = s.settled.architectural.settled.architectural
    rw [architectural_settled tracked.ready, settled_of_idle idle, architectural_architectural]
  | txn x =>
    show (access x s).architectural.settled.architectural =
      (access x s.settled.architectural).architectural.settled.architectural
    rw [access_architectural]
    cases busy : s.busy with
    | false => rw [settled_of_idle (State.not_busy_iff.mp busy)]
    | true =>
      have quiet := quiet_of_busy tracked busy orderly
      rw [access_quiet quiet, access_quiet (s := s.settled) (by rwa [params]), params, irqEn]
      generalize x.irqEnAfter s.params s.irqEn = b
      show (s.aside b 0 [] []).settled.architectural = (s.settled.architectural.setIrqEn b).settled.architectural
      rw [settled_aside tracked.ready, settled_of_idle (s := s.settled.architectural.setIrqEn b) idle]
      rfl

/-- Only the host's actions have an effect on a settled state. -/
theorem foldl_hostActions_cons {x : State} (idle : x.seq = .idle) (bare : x.architectural = x) (e : Event)
    (es : List Event) :
    (hostActions (e :: es)).foldl Event.effect x = (hostActions es).foldl Event.effect (Event.effect x e) := by
  have settled : x.settled = x := settled_of_idle idle
  cases e with
  | complete =>
    have : Event.effect x .complete = x := by
      show x.settled.architectural.settled.architectural = x
      rw [settled, bare, settled, bare]
    rw [this]
    rfl
  | rst o => rfl
  | rstMidTxn y => rfl
  | txn y =>
    cases write : y.write with
    | true => simp [hostActions, write]
    | false =>
      obtain ⟨d, rs, e⟩ := access_read write x
      have : Event.effect x (.txn y) = x := by
        show (access y x).architectural.settled.architectural = x
        rw [e]
        show x.architectural.settled.architectural = x
        rw [bare, settled, bare]
      rw [this]
      simp [hostActions, write]

/-- An event leaves the events behind it. -/
theorem eventResult_inbox (e : Event) (s : State) : (eventResult e s).inbox = s.inbox := by
  cases e with
  | complete => exact (settled_keeps s).2.2
  | rst o =>
    obtain ⟨d, rs, h⟩ := resetEdge_state o s
    simp only [eventResult, handleEvent, h]
    rfl
  | rstMidTxn x => rfl
  | txn x =>
    obtain ⟨_, _, _, _, inbox⟩ := access_keeps x s
    exact inbox

/-- With nothing to come, a run that ends has settled. -/
theorem run_nil {n : Nat} {s t : State} (nil : s.inbox = []) (run : core.run n s = .next t) (ended : t.ended) :
    t = s.settled := by
  have settledEnded : s.settled.ended := ⟨by rw [(settled_keeps s).2.2, nil], settled_seq s⟩
  cases n with
  | zero =>
    cases run
    exact (settled_of_idle ended.2).symm
  | succ n =>
    obtain ⟨u, move⟩ := sequencerMove_next s
    have hstep : core.step s = .next s.settled := 
      (step_nil nil).trans (move.trans (congrArg _ (settled_of_move move).symm))
    simp only [Host.Core.run, hstep, run_of_ended settledEnded n] at run
    cases run
    rfl

/-- A run that ends is the fold of the effects of the host's actions over the settled state. -/
theorem run_eq_foldl {es : List Event} {waiting : Bool} {n : Nat} {s t : State} (hes : s.inbox = es)
    (tracked : s.Tracked waiting) (written : alongRun (fun _ => inputsWrittenAt) waiting es s = true)
    (serial : alongRun serialAt waiting es s = true) (prepares : alongRun preparesAt waiting es s = true)
    (run : core.run n s = .next t) (ended : t.ended) :
    t.architectural = (hostActions es).foldl Event.effect s.settled.architectural := by
  induction es generalizing waiting n s with
  | nil => rw [run_nil hes run ended]; rfl
  | cons e rest ih =>
    obtain ⟨_, m, run'⟩ := run_cons hes run ended
    obtain ⟨written, writtens⟩ := (alongRun_cons ..).mp written
    obtain ⟨serial, serials⟩ := (alongRun_cons ..).mp serial
    obtain ⟨prepares, preparess⟩ := (alongRun_cons ..).mp prepares
    have tracked' : (s.setInbox rest).Tracked waiting :=
      ⟨tracked.waits, tracked.notDone, inputsReady_congr rfl rfl tracked.ready⟩
    have orderly : e.Orderly waiting (s.setInbox rest) := by
      cases e <;> exact ⟨written, serial, prepares⟩
    have next : waitingAfter waiting e s = waitingAfter waiting e (s.setInbox rest) := by cases e <;> rfl
    rw [next] at writtens serials preparess
    have same : (s.setInbox rest).settled.architectural = s.settled.architectural :=
      (architectural_settled tracked'.ready).symm.trans (architectural_settled tracked.ready)
    rw [ih (eventResult_inbox e _) (tracked_eventResult tracked' orderly) writtens serials preparess run',
      settled_eventResult tracked' orderly, same]
    exact (foldl_hostActions_cons (x := s.settled.architectural) (settled_seq s) rfl e rest).symm

/-- A launched run that ends is the fold of the effects of the host's actions over the reset state. -/
theorem launched_run_eq_foldl {n : Nat} {s t : State} (launch : s.LaunchPremises) (prepares : s.preparesInOrder)
    (run : core.run n s = .next t) (ended : t.ended) :
    t.architectural =
      (hostActions s.inbox).foldl Event.effect { State.reset with params := s.params } := by
  have idle := launch.nothingInFlight
  rw [run_eq_foldl rfl (.of_idle idle false) launch.inputsWritten launch.serialUse prepares run ended,
    settled_of_idle idle, launch.resetApplied]
  rfl

end Sys2Proof.Machine

open Sys2Proof Sys2Proof.Machine

/-- Settles O39: a body on written inputs depends on the core alone; and a run is the fold of the effects of its host
actions, which two runs of one program share. -/
theorem writtenInputsDrawNothing : Obligations.WrittenInputsDrawNothing := by
  refine ⟨fun i s t => exec_written, ?_⟩
  intro s₁ s₂ t₁ t₂ n₁ n₂ launch₁ launch₂ prepares₁ prepares₂ params actions run₁ run₂ ended₁ ended₂
  rw [launched_run_eq_foldl launch₁ prepares₁ run₁ ended₁, launched_run_eq_foldl launch₂ prepares₂ run₂ ended₂,
    params, actions]
end

section
/-! PROOFS. Host transactions by where they go (20_memory.md R46 to R64): addresses outside the window, bus errors,
reads anywhere, the two DMEM directions, and accesses while BUSY; and the steps that perform a transaction or nothing. -/

namespace Sys2Proof.Machine

/-! ## Window and bus errors -/

/-- An address outside the window is not decoded (20_memory.md R46). -/
theorem windowOffset_outside {p : Params} {addr : Nat} (outside : addr < p.base ∨ p.base + p.windowSize ≤ addr) :
    windowOffset p addr = none := by
  unfold windowOffset
  rw [if_neg (by omega)]

/-- An access that is not decoded does nothing (20_memory.md R46, log entry 15). -/
theorem access_undecoded {x : Txn} {s : State} (undecoded : windowOffset s.params x.addr = none) :
    access x s = s := by
  simp [access, undecoded]

/-- The bus errors are the misaligned accesses and the narrow ones below 0x100 (20_memory.md R51, R52). -/
theorem isBusError_iff (off : Nat) (z : Size) :
    isBusError off z = true ↔ off % z.bytes ≠ 0 ∨ (off < 0x100 ∧ z.bytes ≠ 4) := by
  have narrow : (z != .b4) = true ↔ z.bytes ≠ 4 := by cases z <;> decide
  simp only [isBusError, Bool.or_eq_true, Bool.and_eq_true, narrow, bne_iff_ne, decide_eq_true_eq]

/-! ## What an offset names -/

/-- The DMEM window begins at 0x1000 (20_memory.md R54). -/
theorem targetOf_dmem (a : Nat) : targetOf (0x1000 + a) = .dmem a := by
  unfold targetOf
  rw [if_neg (by omega), if_neg (by omega), if_neg (by omega), if_neg (by omega), Nat.add_sub_cancel_left]

/-- The result registers, SBOX and DMEM are the locations that read free values while BUSY (20_memory.md R64). -/
theorem unspecifiedWhileBusy_of_offset {off : Nat}
    (h : (0x02C ≤ off ∧ off < 0x03C) ∨ (0x100 ≤ off ∧ off < 0x200) ∨ 0x1000 ≤ off) :
    (targetOf off).unspecifiedWhileBusy = true := by
  have map : ∀ off < 0x03C, 0x02C ≤ off → (Target.reg (regAt off)).unspecifiedWhileBusy = true := by decide
  unfold targetOf
  split_ifs
  · exact map off ‹_› (by omega)
  · omega
  · rfl
  · omega
  · rfl

/-! ## Accesses while BUSY -/

/-- While BUSY a register other than CTRL, STATUS and CMD takes no write (20_memory.md R63). -/
theorem writeReg_busy {r : Reg} {s : State} (busy : s.busy = true) (notCtrl : r ≠ .ctrl) (notStatus : r ≠ .status)
    (notCmd : r ≠ .cmd) (v : Word) : writeReg r v s = s := by
  unfold writeReg
  split
  · exact absurd rfl notCtrl
  · exact absurd rfl notStatus
  · exact absurd rfl notCmd
  · exact if_pos busy

/-- While BUSY no offset but those of CTRL, STATUS and CMD takes a write (20_memory.md R63). -/
theorem busWrite_busy {off : Nat} {s : State} (busy : s.busy = true) (notCtrl : off ≠ offsetOf .ctrl)
    (notStatus : off ≠ offsetOf .status) (notCmd : off ≠ offsetOf .cmd) (z : Size) (v : Word) :
    busWrite off z v s = s := by
  unfold busWrite
  split
  · rename_i r target
    have notAt {r' : Reg} (other : off ≠ offsetOf r') (notLast : r' ≠ .dropped) : r ≠ r' := fun h =>
      other (offsetOf_of_targetOf (target.trans (congrArg _ h)) notLast)
    exact writeReg_busy busy (notAt notCtrl (by decide)) (notAt notStatus (by decide)) (notAt notCmd (by decide)) v
  · rfl
  · rfl
  · exact if_pos busy

/-- While BUSY a result location reads one free value, cut to the access's width (20_memory.md R64). -/
theorem busRead_free {off : Nat} {s : State} (busy : s.busy = true)
    (free : (targetOf off).unspecifiedWhileBusy = true) (z : Size) :
    busRead off z s = (lowBytes z (Config.freeWord s.draws), s.setDraws (s.draws + 1)) := by
  simp [busRead, busy, free]

/-! ## The DMEM window while IDLE -/

/-- A write of the DMEM window while IDLE stores the bytes of the data in ascending order (20_memory.md R54, R56). -/
theorem hostWrite_dmem {z : Size} {a : Nat} {s : State} (idle : s.seq = .idle) (inDmem : a < s.params.dmemSize)
    (aligned : a % z.bytes = 0) (v : Word) :
    hostWrite z (0x1000 + a) v s = (memWriteBytes z.bytes a v s).respond .writeAck := by
  have legal := isBusError_of_aligned (base := 0x1000) (by decide) (by decide) aligned
  rw [hostWrite_legal v (by unfold Params.windowSize; omega) legal]
  simp [busWrite, targetOf_dmem, State.not_busy_iff.mpr idle]

/-- A read of written bytes of the DMEM window while IDLE packs them, and draws nothing (20_memory.md R54, R56). -/
theorem hostRead_dmem_written {z : Size} {a : Nat} {bs : List Byte} {s : State} (idle : s.seq = .idle)
    (inDmem : a < s.params.dmemSize) (aligned : a % z.bytes = 0) (len : bs.length = z.bytes)
    (written : s.dmem.holds a bs) : hostRead z (0x1000 + a) s = s.respond (.readData (packLE bs)) := by
  rw [hostRead_dmem idle inDmem aligned, ← len, memReadBytes_written written]

/-! ## The sequencer at rest -/

/-- While IDLE the sequencer starts nothing (70_reset_and_hazards.md R148). -/
theorem sequencerMove_idle {s : State} (idle : s.seq = .idle) : sequencerMove s = .next s := by
  simp [sequencerMove, idle]

end Sys2Proof.Machine

open Sys2Proof Sys2Proof.Machine

/-- Settles O45: CTRL, STATUS and CMD through the register map, and no other offset takes a write while BUSY. -/
theorem busyWritesAreDropped : Obligations.BusyWritesAreDropped := by
  intro s p v running
  have busy : s.busy = true := State.busy_iff.mpr ⟨p, running⟩
  have cmdLost : writeReg .cmd v s = s.setCmdLost true := if_pos busy
  refine ⟨hostWrite_reg .ctrl v s, hostWrite_reg .status v s, (hostWrite_reg .cmd v s).trans (by rw [cmdLost]),
    fun z off legal inWindow notCtrl notStatus notCmd => ?_⟩
  rw [hostWrite_legal v inWindow legal, busWrite_busy busy notCtrl notStatus notCmd]

/-- Settles O46: each listed register is specified while BUSY, a reserved offset reads 0 in every state, and each
offset of the third clause names a result location. -/
theorem busyReadsOfResultsAreFree : Obligations.BusyReadsOfResultsAreFree := by
  intro s p running
  have busy : s.busy = true := State.busy_iff.mpr ⟨p, running⟩
  refine ⟨fun r listed => hostRead_reg (.inr ?_), fun z off legal reserved => ?_,
    fun z off legal inWindow result => ?_⟩
  · revert r
    decide
  · obtain ⟨_, ignoreOrZero⟩ := readOnlyAndReservedIgnoreWrites
    obtain ⟨_, read⟩ := ignoreOrZero s z off 0 legal (by omega)
    exact read (by omega)
  · rw [hostRead_legal inWindow legal, busRead_free busy (unspecifiedWhileBusy_of_offset result)]

/-- Settles O48: of the outcomes of a decoded transaction, the bus error is the one of the illegal accesses. -/
theorem busErrorsChangeNothing : Obligations.BusErrorsChangeNothing := by
  intro s x off decoded
  rw [← isBusError_iff]
  rcases access_cases x s with ⟨undecoded, _⟩ | ⟨off', decoded', outcome⟩
  · rw [decoded] at undecoded; cases undecoded
  obtain rfl : off = off' := Option.some.inj (decoded.symm.trans decoded')
  rcases outcome with ⟨error, e⟩ | ⟨legal, _, e⟩ | ⟨legal, _, d, _, e⟩
  · exact ⟨fun _ => e, fun legal => absurd error legal⟩
  · obtain ⟨_, _, _, _, _, _, responses⟩ := busWrite_keeps off x.size x.wdata s
    exact ⟨by simp [legal], fun _ => ⟨.writeAck, by simp [e, responses], nofun⟩⟩
  · exact ⟨by simp [legal], fun _ => ⟨.readData _, by rw [e]; rfl, nofun⟩⟩

/-- Settles O50: of the outcomes of a transaction, the three that a read has. -/
theorem readsHaveNoSideEffect : Obligations.ReadsHaveNoSideEffect := by
  intro s x read
  rcases access_cases x s with ⟨_, e⟩ | ⟨off, _, ⟨_, e⟩ | ⟨_, write, _⟩ | ⟨_, _, d, le, e⟩⟩
  · exact ⟨s.draws, s.responses, Nat.le_refl _, e⟩
  · exact ⟨s.draws, _, Nat.le_refl _, e⟩
  · rw [read] at write; cases write
  · exact ⟨d, _, le, e⟩

/-- Settles O51: the write is a multi-byte write of DMEM, whose bytes are known at every address. -/
theorem hostWritesDmemLittleEndian : Obligations.HostWritesDmemLittleEndian := by
  intro s z a v idle aligned inDmem
  have bytes := memWriteBytes_lookup z.bytes a v s
  refine ⟨(memWriteBytes z.bytes a v s).dmem, ?_, fun k hk => ?_, fun b outside => ?_⟩
  · rw [hostWrite_dmem idle inDmem aligned, ← memWriteBytes_state]
  · rw [bytes, if_pos (by omega), Nat.add_sub_cancel_left, byteOf]
  · rw [bytes, if_neg (by omega)]

/-- Settles O52: the read packs the written bytes, and byte k of a packed list is its element k. -/
theorem hostReadsDmemLittleEndian : Obligations.HostReadsDmemLittleEndian := by
  intro s z a bs idle aligned inDmem len written
  refine ⟨packLE bs, hostRead_dmem_written idle inDmem aligned len written, fun k hk => ?_, len ▸ packLE_lt bs⟩
  rw [← len] at hk
  rw [packLE_byte hk (len ▸ size_bytes_le z), List.getElem?_eq_getElem hk]

/-- Settles O8: a transaction is handled by its access, and an idle sequencer's move is none. -/
theorem stepTakesTheNextEvent : Obligations.StepTakesTheNextEvent := fun _ =>
  ⟨fun _ _ next => step_cons next,
   fun idle nothing => (step_nil nothing).trans (sequencerMove_idle idle),
   fun _ idle next => (step_cons next).trans (sequencerMove_idle idle)⟩

/-- Settles O49: the window ends DMEM_SIZE bytes above offset 0x1000. -/
theorem windowDecodesItsAddresses : Obligations.WindowDecodesItsAddresses := fun s x =>
  ⟨fun outside => access_undecoded (windowOffset_outside (by unfold Params.windowSize; omega)),
   fun _ inWindow => windowOffset_base inWindow⟩
end

section
/-! PROOFS. Command words (30_encoding.md R70, R71, R74, R75): as a number a word is 256·RSV + OP, and the decoder, the
encoder and the test of legality all speak of these two fields. -/

namespace Sys2Proof

/-! ## The two fields of a command word -/

theorem opField_toNat (w : Word) : (opField w).toNat = w.toNat % 256 := by simp [opField]

theorem rsvField_toNat (w : Word) : (rsvField w).toNat = w.toNat / 256 := by
  have := w.isLt
  simp only [rsvField, BitVec.extractLsb'_toNat, Nat.shiftRight_eq_div_pow]
  omega

theorem rsvField_eq_zero_iff (w : Word) : rsvField w = 0 ↔ w.toNat / 256 = 0 := by
  rw [← BitVec.toNat_inj, rsvField_toNat]
  rfl

/-- A word is an opcode below zeros exactly when its fields say so (30_encoding.md R70). -/
theorem eq_setWidth_iff_fields (w : Word) (op : Byte) : w = op.setWidth 32 ↔ rsvField w = 0 ∧ opField w = op := by
  have := op.isLt
  rw [rsvField_eq_zero_iff, ← BitVec.toNat_inj, ← BitVec.toNat_inj, opField_toNat, BitVec.toNat_setWidth]
  omega

/-! ## Decoder and encoder -/

theorem decodeOp_eq_ok_iff (op : Byte) (i : Instr) : decodeOp op = .ok i ↔ op = opcode i := by
  constructor
  · unfold decodeOp
    split_ifs with h1 h2 h3 h4 h5 <;> intro decoded <;> cases decoded
    · exact h1
    · exact h2
    · exact h3
    · exact h4
    · exact h5
  · rintro rfl
    cases i <;> rfl

/-- What the decoder asks of the two fields (30_encoding.md R75). -/
theorem decode_eq_ok_iff (w : Word) (i : Instr) : decode w = .ok i ↔ rsvField w = 0 ∧ opField w = opcode i := by
  unfold decode
  split_ifs with rsv
  · rw [decodeOp_eq_ok_iff, and_iff_right rsv]
  · exact ⟨nofun, fun ⟨zero, _⟩ => absurd zero rsv⟩

theorem decode_eq_ok_iff_eq_encode (w : Word) (i : Instr) : decode w = .ok i ↔ w = encode i :=
  (decode_eq_ok_iff w i).trans (eq_setWidth_iff_fields w (opcode i)).symm

theorem decode_encode (i : Instr) : decode (encode i) = .ok i := (decode_eq_ok_iff_eq_encode _ i).mpr rfl

/-! ## Legality -/

theorem rsvIsZero_iff (w : Word) : rsvIsZero w = true ↔ rsvField w = 0 := by
  rw [rsvField_eq_zero_iff, rsvIsZero, beq_iff_eq]

/-- The opcodes of the map are the numbers 1 to 5 (30_encoding.md R71). -/
theorem exists_opcode_iff (op : Byte) : (∃ i, op = opcode i) ↔ 1 ≤ op.toNat ∧ op.toNat ≤ 5 := by
  constructor
  · rintro ⟨i, rfl⟩
    cases i <;> decide
  · rintro ⟨low, high⟩
    have row (i : Instr) (h : op.toNat = (opcode i).toNat) : ∃ i, op = opcode i := ⟨i, BitVec.eq_of_toNat_eq h⟩
    obtain h | h | h | h | h :
        op.toNat = 1 ∨ op.toNat = 2 ∨ op.toNat = 3 ∨ op.toNat = 4 ∨ op.toNat = 5 := by omega
    · exact row .init h
    · exact row .gen h
    · exact row .crypt h
    · exact row .flip h
    · exact row .hamm h

theorem opIsListed_iff (w : Word) : opIsListed w = true ↔ ∃ i, opField w = opcode i := by
  simp only [exists_opcode_iff, opField_toNat, opIsListed, Bool.and_eq_true, decide_eq_true_eq]

/-- Legality in terms of the two fields (30_encoding.md R74). -/
theorem legalWord_iff (w : Word) : legalWord w = true ↔ rsvField w = 0 ∧ ∃ i, opField w = opcode i := by
  rw [legalWord, Bool.and_eq_true, rsvIsZero_iff, opIsListed_iff]

end Sys2Proof

open Sys2Proof

/-- Settles O2: both sides say that RSV is 0 and OP is the command's opcode. -/
theorem decodeAndEncodeAgree : Obligations.DecodeAndEncodeAgree := fun w i _ => decode_eq_ok_iff_eq_encode w i

/-- Settles O1: the five table words are those that the encoder writes, and the decoder evaluates the illegal ones. -/
theorem tableWordsDecodeToTheirCommands : Obligations.TableWordsDecodeToTheirCommands :=
  ⟨decode_encode .init, decode_encode .gen, decode_encode .crypt, decode_encode .flip, decode_encode .hamm,
   by decide, by decide, by decide, by decide⟩

/-- Settles O3: a word decodes and is legal by the same two fields. -/
theorem exactlyTheLegalWordsDecode : Obligations.ExactlyTheLegalWordsDecode := by
  intro w
  rw [legalWord_iff, ← exists_and_left]
  exact exists_congr (decode_eq_ok_iff w)
end

section
/-! PROOFS. The operand use of commands (30_encoding.md R72): a body reads the registers of its row at its start, and
its loops carry the operand registers along without looking at them. -/

namespace Sys2Proof.Machine

/-! ## The operand registers of a command -/

/-- Two values of the operand registers agree on the row of a command (30_encoding.md R72). -/
def Operands.AgreeOnRow (i : Instr) (o o' : Operands) : Prop :=
  match i with
  | .init => o.srcA = o'.srcA ∧ o.lenA = o'.lenA ∧ o.drop = o'.drop
  | .gen => o.dst = o'.dst ∧ o.lenA = o'.lenA
  | .crypt => o.srcA = o'.srcA ∧ o.dst = o'.dst ∧ o.lenA = o'.lenA
  | .flip => o.srcA = o'.srcA ∧ o.dst = o'.dst ∧ o.lenA = o'.lenA ∧ o.bitidx = o'.bitidx
  | .hamm => o.srcA = o'.srcA ∧ o.srcB = o'.srcB ∧ o.lenA = o'.lenA ∧ o.lenB = o'.lenB

/-- A loop commutes with what each of its iterations commutes with. -/
theorem loop_commutes {σ : Type} {f : Nat → σ → σ} {g : σ → σ} (h : ∀ k y, f k (g y) = g (f k y)) (n : Nat)
    (x : σ) : loop f n (g x) = g (loop f n x) :=
  loop_rel (fun a b => a = g b) rfl fun k _ b _ e => by rw [e, h]

section
variable (o : Operands)

theorem memRead_setOperands (a : Nat) (s : State) :
    memRead a (s.setOperands o) = ((memRead a s).1, (memRead a s).2.setOperands o) := by
  cases h : s.dmem.lookup a with
  | some b => rw [memRead_written h, memRead_written (s := s.setOperands o) h]
  | none => rw [memRead_unwritten h, memRead_unwritten (s := s.setOperands o) h]; rfl

theorem memReadBytes_setOperands (n a : Nat) (s : State) :
    memReadBytes n a (s.setOperands o) = ((memReadBytes n a s).1, (memReadBytes n a s).2.setOperands o) := by
  induction n generalizing a s with
  | zero => rfl
  | succ n ih => simp only [memReadBytes, memRead_setOperands, ih]

theorem genByte_setOperands (dst k : Nat) (s : State) :
    genByte dst k (s.setOperands o) = (genByte dst k s).setOperands o := rfl

theorem cryptByte_setOperands (src dst k : Nat) (s : State) :
    cryptByte src dst k (s.setOperands o) = (cryptByte src dst k s).setOperands o := by
  have read := memRead_setOperands o (src + k) (s.setEngine (prgaStep s.engine).2)
  unfold cryptByte
  exact congrArg (fun b : Byte × State => memWrite (dst + k) (b.1 ^^^ (prgaStep s.engine).1) b.2) read

theorem flipByte_setOperands (src dst b k : Nat) (s : State) :
    flipByte src dst b k (s.setOperands o) = (flipByte src dst b k s).setOperands o := by
  simp only [flipByte, memRead_setOperands]
  rfl

/-- HAMM's state of an iteration, the distance so far beside the block's state, with other operands. -/
def hammSetOperands (x : Nat × State) : Nat × State := (x.1, x.2.setOperands o)

theorem hammByte_setOperands (srcA srcB k : Nat) (x : Nat × State) :
    hammByte srcA srcB k (hammSetOperands o x) = hammSetOperands o (hammByte srcA srcB k x) := by
  simp only [hammByte, hammSetOperands, memRead_setOperands]

/-! ## Checks and bodies -/

variable {o} {i : Instr} {s : State}

theorem check_setOperands (row : o.AgreeOnRow i s.operands) : check i (s.setOperands o) = check i s := by
  cases i with
  | init =>
    obtain ⟨srcA, lenA, _⟩ := row
    simp [check, regions, keyLengthOk, srcA, lenA]
  | gen =>
    obtain ⟨dst, lenA⟩ := row
    simp [check, regions, dst, lenA]
  | crypt =>
    obtain ⟨srcA, dst, lenA⟩ := row
    simp [check, regions, srcA, dst, lenA]
  | flip =>
    obtain ⟨srcA, dst, lenA, bitidx⟩ := row
    simp [check, regions, bitIndexOk, srcA, dst, lenA, bitidx]
  | hamm =>
    obtain ⟨srcA, srcB, lenA, lenB⟩ := row
    simp [check, regions, srcA, srcB, lenA, lenB]

theorem bodyOf_setOperands (row : o.AgreeOnRow i s.operands) :
    bodyOf i (s.setOperands o) = (bodyOf i s).setOperands o := by
  cases i with
  | init =>
    obtain ⟨srcA, lenA, drop⟩ := row
    simp only [bodyOf, initBody, State.setOperands_operands, srcA, lenA, drop, memReadBytes_setOperands]
    rfl
  | gen =>
    obtain ⟨dst, lenA⟩ := row
    simp only [bodyOf, genBody, State.setOperands_operands, dst, lenA]
    exact loop_commutes (g := (State.setOperands · o)) (genByte_setOperands o _) _ (s.setEngine (doDrop s.engine))
  | crypt =>
    obtain ⟨srcA, dst, lenA⟩ := row
    simp only [bodyOf, cryptBody, State.setOperands_operands, srcA, dst, lenA]
    exact loop_commutes (g := (State.setOperands · o)) (cryptByte_setOperands o _ _) _ (s.setEngine (doDrop s.engine))
  | flip =>
    obtain ⟨srcA, dst, lenA, bitidx⟩ := row
    simp only [bodyOf, flipBody, State.setOperands_operands, srcA, dst, lenA, bitidx]
    exact loop_commutes (g := (State.setOperands · o)) (flipByte_setOperands o _ _ _) _ _
  | hamm =>
    obtain ⟨srcA, srcB, lenA, lenB⟩ := row
    simp only [bodyOf, hammBody, State.setOperands_operands, srcA, srcB, lenA, lenB]
    have carried := loop_commutes (hammByte_setOperands o s.operands.srcA.toNat s.operands.srcB.toNat)
      (min s.operands.lenA.toNat s.operands.lenB.toNat) (0, s)
    exact congrArg (fun d : Nat × State => d.2.setResult (BitVec.ofNat 32 d.1)) carried

theorem runCommand_setOperands (row : o.AgreeOnRow i s.operands) :
    runCommand i (bodyOf i) (s.setOperands o) = (runCommand i (bodyOf i) s).setOperands o := by
  have same := check_setOperands row
  by_cases pass : check i s = .none
  · rw [runCommand_pass _ pass, runCommand_pass _ (same.trans pass), bodyOf_setOperands row]
    rfl
  · rw [runCommand_fail _ pass, runCommand_fail _ (same.symm ▸ pass), same]
    rfl

end

end Sys2Proof.Machine

open Sys2Proof Sys2Proof.Machine

/-- Settles O38: the check and the body answer as before, with the new operands carried along. -/
theorem onlyListedOperandsMatter : Obligations.OnlyListedOperandsMatter := by
  intro i s t o run row
  rw [exec_eq] at run ⊢
  cases run
  rw [runCommand_setOperands row]
end

section
/-! PROOFS. The command cycle (40_command_cycle.md R80 to R89): issue, the checks in their order, completion, and that
every run comes to rest. A completion is a move of the sequencer, and each way to reach it, an empty inbox or a
completion point, is the same move. -/

namespace Sys2Proof.Machine

/-! ## The sequencer while BUSY -/

/-- A step makes the sequencer's move when a completion point comes next (40_command_cycle.md R80). -/
theorem step_complete {s : State} {rest : List Event} (next : s.inbox = .complete :: rest) :
    step s = sequencerMove (s.setInbox rest) := step_cons next

theorem sequencerMove_decoded {s : State} {w : Word} {i : Instr} (busy : s.seq = .busy w) (decoded : decode w = .ok i) :
    sequencerMove s = exec i s := by
  simp only [sequencerMove, busy, decoded]

/-- An illegal word is one that the decoder rejects (30_encoding.md R74, R75). -/
theorem decode_illegal {w : Word} (illegal : legalWord w = false) : ∃ e, decode w = .error e := by
  cases decoded : decode w with
  | ok i =>
    have legal : legalWord w = true := (exactlyTheLegalWordsDecode w).mp ⟨i, decoded⟩
    rw [illegal] at legal
    cases legal
  | error e => exact ⟨e, rfl⟩

theorem sequencerMove_illegal {s : State} {w : Word} (busy : s.seq = .busy w) (illegal : legalWord w = false) :
    sequencerMove s = .next (s.complete .illegalCmd) := by
  obtain ⟨e, rejected⟩ := decode_illegal illegal
  simp only [sequencerMove, busy, rejected]

/-- A completion with a nonzero code, as one update of the state (40_command_cycle.md R87, R88). -/
theorem complete_failed (s : State) {c : ErrCode} (failed : c ≠ .none) :
    s.complete c = { s with seq := .idle, done := true, err := true, errcode := c } := by
  have err : (c != .none) = true := bne_iff_ne.mpr failed
  simp only [State.complete, err]
  rfl

/-! ## The checks -/

theorem needsKey_iff (i : Instr) : needsKey i = true ↔ i = .gen ∨ i = .crypt := by
  cases i <;> decide

theorem keyLengthOk_iff (o : Operands) : keyLengthOk o = true ↔ 1 ≤ o.lenA.toNat ∧ o.lenA.toNat ≤ 256 := by
  simp only [keyLengthOk, Bool.and_eq_true, decide_eq_true_eq]

theorem bitIndexOk_iff (o : Operands) : bitIndexOk o = true ↔ o.bitidx.toNat < 8 * o.lenA.toNat :=
  decide_eq_true_iff

/-- The test of one region is the exact sum of R86. -/
theorem inRange_eq_fits (s : State) (base len : Word) :
    inRange s.params.dmemSize (base, len) = decide (s.fits base len) := rfl

/-! ## Host writes of CMD, and writes while BUSY -/

/-- A CMD write while IDLE is an issue (40_command_cycle.md R82). -/
theorem writeReg_cmd_idle {s : State} (idle : s.seq = .idle) (w : Word) : writeReg .cmd w s = s.issue w :=
  if_neg (by simp [State.not_busy_iff.mpr idle])

/-- A CMD write while BUSY only sets CMD_LOST (20_memory.md R62). -/
theorem writeReg_cmd_busy {s : State} (busy : s.busy = true) (w : Word) : writeReg .cmd w s = s.setCmdLost true :=
  if_pos busy

/-- While BUSY a register write leaves SEQ, PEND and the operands: CTRL, STATUS and CMD write none of them, and the
other registers take no write (20_memory.md R62, R63). -/
theorem writeReg_keeps_running {s : State} (busy : s.busy = true) (r : Reg) (w : Word) :
    (writeReg r w s).seq = s.seq ∧ (writeReg r w s).operands = s.operands := by
  cases r with
  | ctrl => exact ⟨rfl, rfl⟩
  | status => exact ⟨rfl, rfl⟩
  | cmd => rw [writeReg_cmd_busy busy]; exact ⟨rfl, rfl⟩
  | _ => rw [writeReg_busy busy (by decide) (by decide) (by decide)]; exact ⟨rfl, rfl⟩

theorem busWrite_keeps_running {s : State} (busy : s.busy = true) (off : Nat) (z : Size) (w : Word) :
    (busWrite off z w s).seq = s.seq ∧ (busWrite off z w s).operands = s.operands ∧
      (busWrite off z w s).dmem = s.dmem := by
  unfold busWrite
  split
  · rename_i r _
    obtain ⟨seq, operands⟩ := writeReg_keeps_running busy r w
    obtain ⟨_, _, _, _, dmem, _⟩ := writeReg_keeps r w s
    exact ⟨seq, operands, dmem⟩
  · exact ⟨rfl, rfl, rfl⟩
  · exact ⟨rfl, rfl, rfl⟩
  · rw [if_pos busy]; exact ⟨rfl, rfl, rfl⟩

/-! ## Runs -/

theorem run_succ {s t : State} (hstep : step s = .next t) (n : Nat) : core.run (n + 1) s = core.run n t := by
  have hcore : core.step s = .next t := hstep
  simp only [Host.Core.run, hcore]

/-- Every event but a reset inside a transaction has a next state (60_exceptions.md R116, log entry 8). -/
theorem handleEvent_next {e : Event} (noFault : ∀ x, e ≠ .rstMidTxn x) (s : State) :
    handleEvent e s = .next (eventResult e s) := by
  cases e with
  | txn x => rfl
  | complete =>
    obtain ⟨t, move⟩ := sequencerMove_next s
    simp only [eventResult, handleEvent, move]
  | rst o => rfl
  | rstMidTxn x => exact absurd rfl (noFault x)

/-- With nothing to come, one step brings the block to rest (weak fairness of *complete*, 40_command_cycle.md R81). -/
theorem step_nil_ended {s : State} (nil : s.inbox = []) : step s = .next s.settled ∧ s.settled.ended := by
  obtain ⟨_, _, inbox⟩ := settled_keeps s
  exact ⟨(step_nil nil).trans (handleEvent_next (e := .complete) nofun s), inbox.trans nil, settled_seq s⟩

/-- A run takes one step for each event to come and one more for the command that may still be running. -/
theorem run_ends {es : List Event} {s : State} (hes : s.inbox = es) (noFault : ∀ x, Event.rstMidTxn x ∉ es) :
    ∃ t, core.run (es.length + 1) s = .next t ∧ t.ended := by
  induction es generalizing s with
  | nil =>
    obtain ⟨hstep, ended⟩ := step_nil_ended hes
    exact ⟨s.settled, run_succ hstep 0, ended⟩
  | cons e rest ih =>
    have here : ∀ x, e ≠ .rstMidTxn x := fun x h => noFault x (h ▸ List.mem_cons_self)
    have later : ∀ x, Event.rstMidTxn x ∉ rest := fun x h => noFault x (List.mem_cons_of_mem e h)
    obtain ⟨t, run, ended⟩ := ih (eventResult_inbox e (s.setInbox rest)) later
    have hstep : step s = .next (eventResult e (s.setInbox rest)) := (step_cons hes).trans (handleEvent_next here _)
    exact ⟨t, (run_succ hstep _).trans run, ended⟩

end Sys2Proof.Machine

open Sys2Proof Sys2Proof.Machine

/-- Settles O10: each event takes one step and leaves the events behind it, and the last step completes what runs. -/
theorem everyRunEnds : Obligations.EveryRunEnds := fun _ => run_ends rfl

/-- Settles O7: both points where the sequencer moves make the move of the decoded command. -/
theorem stepRunsTheDecodedCommand : Obligations.StepRunsTheDecodedCommand := fun _ _ _ busy decoded =>
  ⟨fun nil => (step_nil nil).trans (sequencerMove_decoded busy decoded),
   fun _ next => (step_complete next).trans (sequencerMove_decoded busy decoded)⟩

/-- Settles O11: a CMD write through the register map, an issue while IDLE and a lost command while BUSY. -/
theorem cmdWriteIssuesOrIsLost : Obligations.CmdWriteIssuesOrIsLost := by
  refine fun s w => ⟨fun idle => ?_, fun p running => ?_⟩
  · exact (hostWrite_reg .cmd w s).trans (by rw [writeReg_cmd_idle idle]; rfl)
  · have busy := State.busy_iff.mpr ⟨p, running⟩
    exact (hostWrite_reg .cmd w s).trans (by rw [writeReg_cmd_busy busy]; rfl)

/-- Settles O14: a failed check and an illegal word end by the completion alone. -/
theorem failedCommandChangesOnlyStatus : Obligations.FailedCommandChangesOnlyStatus := by
  refine ⟨fun i s failed => ?_, fun s w busy illegal => ?_⟩
  · rw [exec_eq, runCommand_fail _ failed, complete_failed s failed]
  · rw [sequencerMove_illegal busy illegal, complete_failed s (by decide)]

/-- Settles O12: both points where the sequencer moves fail an illegal word (O14). -/
theorem illegalWordCompletesWithIllegalCmd : Obligations.IllegalWordCompletesWithIllegalCmd := by
  obtain ⟨_, failed⟩ := failedCommandChangesOnlyStatus
  exact fun s w busy illegal =>
    ⟨fun nil => (step_nil nil).trans (failed s w busy illegal),
     fun rest next => (step_complete next).trans (failed (s.setInbox rest) w busy illegal)⟩

/-- Settles O13: the model's checks, condition by condition in the same order. -/
theorem checksComeInOrder : Obligations.ChecksComeInOrder := by
  intro i s
  unfold check
  refine if_congr ?notKeyed rfl (if_congr ?invalidKey rfl (if_congr ?addrRange rfl (if_congr ?bitIndex rfl rfl)))
  case notKeyed => rw [Bool.and_eq_true, needsKey_iff, Bool.not_eq_true']
  case invalidKey => rw [Bool.and_eq_true, beq_iff_eq, Bool.not_eq_true', ← keyLengthOk_iff, Bool.not_eq_true]
  case addrRange =>
    rw [Bool.not_eq_true']
    cases i <;> simp only [regions, List.all_cons, List.all_nil, Bool.and_true, inRange_eq_fits]
  case bitIndex => rw [Bool.and_eq_true, beq_iff_eq, Bool.not_eq_true', ← bitIndexOk_iff, Bool.not_eq_true]

/-- Settles O15: whatever a command's body does, the completion writes SEQ, DONE, ERR and ERRCODE after it. -/
theorem completionWritesStatus : Obligations.CompletionWritesStatus :=
  ⟨fun i s => ⟨_, exec_eq i s, rfl, rfl, rfl, rfl⟩,
   fun _ _ busy illegal => ⟨_, sequencerMove_illegal busy illegal, rfl, rfl, rfl, rfl⟩⟩

/-- Settles O56: of the outcomes of a transaction only a write could touch these fields, and while BUSY it does not. -/
theorem hostCannotDisturbARunningCommand : Obligations.HostCannotDisturbARunningCommand := by
  intro s x busy
  obtain ⟨_, errcode, result, engine, _⟩ := access_keeps x s
  suffices running : (access x s).seq = s.seq ∧ (access x s).operands = s.operands ∧ (access x s).dmem = s.dmem by
    obtain ⟨seq, operands, dmem⟩ := running
    exact ⟨seq, operands, dmem, engine, result, errcode⟩
  rcases access_cases x s with ⟨_, e⟩ | ⟨off, _, ⟨_, e⟩ | ⟨_, _, e⟩ | ⟨_, _, _, _, e⟩⟩ <;> rw [e]
  · exact ⟨rfl, rfl, rfl⟩
  · exact ⟨rfl, rfl, rfl⟩
  · exact busWrite_keeps_running busy off x.size x.wdata
  · exact ⟨rfl, rfl, rfl⟩
end

section
/-! PROOFS. INIT, GEN and CRYPT (41_cipher.md R93 to R107). A command that passes its checks is its body and then a
completion, and a body is a loop of keystream steps over DMEM. Each command's outcome is stated once, by the engine
that it leaves and the bytes that it writes; determinism, splitting and symmetry are then facts about keystreams. -/

namespace Sys2Proof.Machine

/-! ## Completions -/

/-- Every completion is that of a body whose checks pass, or that of a failed check (40_command_cycle.md R87, R88). -/
theorem exec_cases {i : Instr} {s t : State} (run : exec i s = .next t) :
    (check i s = .none ∧ t = (bodyOf i s).complete .none) ∨ (check i s ≠ .none ∧ t = s.complete (check i s)) := by
  rw [exec_eq] at run
  cases run
  by_cases pass : check i s = .none
  · exact .inl ⟨pass, runCommand_pass _ pass⟩
  · exact .inr ⟨pass, runCommand_fail _ pass⟩

theorem exec_pass {i : Instr} {s : State} (pass : check i s = .none) :
    exec i s = .next ((bodyOf i s).complete .none) := by
  rw [exec_eq, runCommand_pass _ pass]

/-- What a body and the completion both leave alone, the command leaves alone. -/
theorem exec_leaves {τ : Type} (view : State → τ) {i : Instr} {s t : State} (run : exec i s = .next t)
    (body : view (bodyOf i s) = view s)
    (completion : ∀ u c, view (State.complete u c) = view u := by intros; rfl) :
    view t = view s := by
  rcases exec_cases run with ⟨_, rfl⟩ | ⟨_, rfl⟩
  · rw [completion, body]
  · exact completion s _

/-- What no command changes (30_encoding.md R72; 40_command_cycle.md R87). -/
theorem exec_leaves_control {i : Instr} {s t : State} (run : exec i s = .next t) :
    t.operands = s.operands ∧ t.irqEn = s.irqEn ∧ t.cmdLost = s.cmdLost ∧ t.params = s.params ∧
      t.inbox = s.inbox ∧ t.responses = s.responses := by
  obtain ⟨params, _, irqEn, _, _, cmdLost, _, operands, inbox, responses⟩ := State.control_eq (bodyOf_control i s)
  exact ⟨exec_leaves (·.operands) run operands, exec_leaves (·.irqEn) run irqEn,
    exec_leaves (·.cmdLost) run cmdLost, exec_leaves (·.params) run params,
    exec_leaves (·.inbox) run inbox, exec_leaves (·.responses) run responses⟩

theorem exec_leaves_result {i : Instr} {s t : State} (run : exec i s = .next t) (notHamm : i ≠ .hamm) :
    t.result = s.result :=
  exec_leaves (·.result) run (bodyOf_result notHamm s)

/-! ## INIT -/

/-- INIT's checks pass for a key of 1 to 256 bytes in DMEM (41_cipher.md R100, 40_command_cycle.md R86). -/
theorem check_init_pass {s : State} (least : 1 ≤ s.operands.lenA.toNat) (most : s.operands.lenA.toNat ≤ 256)
    (fits : s.fits s.operands.srcA s.operands.lenA) : check .init s = .none := by
  rw [check_init, if_pos ⟨least, most⟩, if_pos fits]

/-- INIT writes no byte of DMEM (41_cipher.md R100). -/
theorem initBody_dmem (s : State) : (initBody s).dmem = s.dmem := by
  obtain ⟨_, _, _, _, body⟩ := initBody_spec s
  rw [body]
  rfl

/-- INIT on a written key that passes its checks: the new engine, and DMEM as before (41_cipher.md R100). -/
theorem exec_init_spec {s t : State} {key : List Byte} (pass : check .init s = .none)
    (length : s.operands.lenA.toNat = key.length) (held : s.dmem.holds s.operands.srcA.toNat key)
    (run : exec .init s = .next t) : t.engine = newEngine key s.operands.drop ∧ t.dmem = s.dmem := by
  rw [exec_init_written pass length held] at run
  cases run
  exact ⟨rfl, rfl⟩

/-- Byte i of a repeated key is byte `i mod L` of the key. -/
theorem getD_repeated (key : List Byte) {m i : Nat} (hi : i < m * key.length) :
    (List.replicate m key).flatten.getD i 0 = key.getD (i % key.length) 0 := by
  induction m generalizing i with
  | zero => omega
  | succ m ih =>
    rw [List.replicate_succ, List.flatten_cons]
    by_cases first : i < key.length
    · rw [List.getD_append _ _ _ _ first, Nat.mod_eq_of_lt first]
    · have past : key.length ≤ i := Nat.le_of_not_lt first
      rw [List.getD_append_right _ _ _ _ past, ih (by rw [Nat.succ_mul] at hi; omega), ← Nat.mod_eq_sub_mod past]

/-- A round of key scheduling reads the same byte of a key and of its repetition (41_cipher.md R93). -/
theorem ksaRound_repeated {key : List Byte} {m : Nat} (nonempty : 1 ≤ key.length) (times : 1 ≤ m) :
    ksaRound (List.replicate m key).flatten = ksaRound key := by
  have length : (List.replicate m key).flatten.length = m * key.length := by simp
  have keyByte (i : Nat) :
      (List.replicate m key).flatten.getD (i % (m * key.length)) 0 = key.getD (i % key.length) 0 := by
    rw [getD_repeated key (Nat.mod_lt _ (Nat.mul_pos times nonempty)), Nat.mod_mod_of_dvd _ (Nat.dvd_mul_left ..)]
  funext i x
  simp only [ksaRound, length, keyByte]

/-! ## The keystream step -/

/-- The two entries of a swap are exchanged (41_cipher.md R94, R95). -/
theorem sboxGet_swap_left (p : SBox) (a b : Byte) : sboxGet (sboxSwap p a b) a = sboxGet p b := by
  rw [sboxGet_swap, if_pos rfl]

theorem sboxGet_swap_right (p : SBox) (a b : Byte) : sboxGet (sboxSwap p a b) b = sboxGet p a := by
  rw [sboxGet_swap]
  split
  · rename_i same; rw [same]
  · rw [if_pos rfl]

/-! ## GEN -/

/-- GEN's checks pass with KEYED set and the output in DMEM (40_command_cycle.md R85, R86). -/
theorem check_gen_pass {s : State} (keyed : s.engine.keyed = true)
    (fits : s.fits s.operands.dst s.operands.lenA) : check .gen s = .none := by
  rw [checksComeInOrder]
  simp [keyed, fits]

/-- What GEN makes of `s`: the engine past the output, nothing drawn, the output, and the bytes outside it
(41_cipher.md R102). -/
structure GenOutcome (s t : State) : Prop where
  engine : t.engine = (doDrop s.engine).after s.operands.lenA.toNat
  draws : t.draws = s.draws
  bytes : ∀ k, k < s.operands.lenA.toNat →
    t.dmem.lookup (s.operands.dst.toNat + k) = some ((doDrop s.engine).keystream k)
  outside : ∀ a, a < s.operands.dst.toNat ∨ s.operands.dst.toNat + s.operands.lenA.toNat ≤ a →
    t.dmem.lookup a = s.dmem.lookup a

theorem genBody_outcome (s : State) : GenOutcome s (genBody s) := by
  obtain ⟨_, _, draws, engine, bytes, outside⟩ :=
    genLoop_spec s.operands.dst.toNat s.operands.lenA.toNat (s.setEngine (doDrop s.engine))
  exact ⟨engine, draws, bytes, outside⟩

/-- A GEN that passes its checks does what its body does. -/
theorem exec_gen_outcome {s t : State} (pass : check .gen s = .none) (run : exec .gen s = .next t) :
    GenOutcome s t := by
  rw [exec_pass pass] at run
  cases run
  exact { genBody_outcome s with }

/-! ## CRYPT -/

/-- CRYPT's checks pass with KEYED set and both regions in DMEM (40_command_cycle.md R85, R86). -/
theorem check_crypt_pass {s : State} (keyed : s.engine.keyed = true)
    (input : s.fits s.operands.srcA s.operands.lenA) (output : s.fits s.operands.dst s.operands.lenA) :
    check .crypt s = .none := by
  rw [checksComeInOrder]
  simp [keyed, input, output]

/-- CRYPT's body: the engine past the output, the bytes outside the output, and the output byte by byte
(41_cipher.md R104, R105). -/
theorem cryptBody_spec (s : State) :
    (cryptBody s).engine = (doDrop s.engine).after s.operands.lenA.toNat ∧
    (∀ a, a < s.operands.dst.toNat ∨ s.operands.dst.toNat + s.operands.lenA.toNat ≤ a →
      (cryptBody s).dmem.lookup a = s.dmem.lookup a) ∧
    (∀ k, k < s.operands.lenA.toNat → (cryptBody s).dmem.lookup (s.operands.dst.toNat + k) ≠ none) ∧
    (∀ k b, k < s.operands.lenA.toNat →
      s.operands.srcA.toNat + k < s.operands.dst.toNat ∨ s.operands.dst.toNat ≤ s.operands.srcA.toNat →
      s.dmem.lookup (s.operands.srcA.toNat + k) = some b →
      (cryptBody s).dmem.lookup (s.operands.dst.toNat + k) = some (b ^^^ (doDrop s.engine).keystream k)) ∧
    (∀ k j c, k < s.operands.lenA.toNat → j < k → s.operands.srcA.toNat + k = s.operands.dst.toNat + j →
      (cryptBody s).dmem.lookup (s.operands.dst.toNat + j) = some c →
      (cryptBody s).dmem.lookup (s.operands.dst.toNat + k) = some (c ^^^ (doDrop s.engine).keystream k)) :=
  ⟨cryptLoop_engine .., cryptLoop_spec ..⟩

/-- The bytes `bs` XOR the keystream of an engine (41_cipher.md R104). -/
def Engine.xorKeystream (e : Engine) (bs : List Byte) : List Byte := bs.mapIdx fun k b => b ^^^ e.keystream k

@[simp] theorem Engine.xorKeystream_length (e : Engine) (bs : List Byte) :
    (e.xorKeystream bs).length = bs.length := List.length_mapIdx

/-- XOR with the same keystream twice is the identity, which is why CRYPT decrypts what it encrypted (R107). -/
theorem Engine.xorKeystream_xorKeystream (e : Engine) (bs : List Byte) :
    e.xorKeystream (e.xorKeystream bs) = bs := by
  refine List.ext_getElem (by simp) fun k _ _ => ?_
  simp [Engine.xorKeystream]

/-- A byte sequence stands where it stood when its bytes are as before. -/
theorem Memory.holds_of_lookup_eq {m m' : Memory} {a : Nat} {bs : List Byte} (h : m.holds a bs)
    (same : ∀ k, k < bs.length → m'.lookup (a + k) = m.lookup (a + k)) : m'.holds a bs := fun k hk => by
  rw [same k hk, h k hk]

/-- CRYPT of written bytes, in place or to a region that no later input byte lies in, writes them XOR the keystream
(41_cipher.md R104, R105). -/
theorem exec_crypt_holds {s t : State} {bs : List Byte} (pass : check .crypt s = .none)
    (run : exec .crypt s = .next t) (length : s.operands.lenA.toNat = bs.length)
    (input : s.dmem.holds s.operands.srcA.toNat bs)
    (apart : s.operands.dst = s.operands.srcA ∨ disjoint s.operands.srcA.toNat s.operands.dst.toNat bs.length) :
    t.dmem.holds s.operands.dst.toNat ((doDrop s.engine).xorKeystream bs) := by
  rw [exec_pass pass] at run
  cases run
  obtain ⟨_, _, _, fresh, _⟩ := cryptBody_spec s
  intro k hk
  rw [Engine.xorKeystream_length] at hk
  have unwritten : s.operands.srcA.toNat + k < s.operands.dst.toNat ∨
      s.operands.dst.toNat ≤ s.operands.srcA.toNat := by
    rcases apart with same | below | above
    · rw [same]; exact .inr (Nat.le_refl _)
    · exact .inl (by omega)
    · exact .inr (by omega)
  have byte := input k hk
  rw [List.getElem?_eq_getElem hk] at byte
  have output : ((doDrop s.engine).xorKeystream bs)[k]? = some (bs[k] ^^^ (doDrop s.engine).keystream k) := by
    simp [Engine.xorKeystream, hk]
  exact (fresh k bs[k] (by omega) unwritten byte).trans output.symm

/-- CRYPT leaves every byte outside its output (41_cipher.md R104). -/
theorem exec_crypt_outside {s t : State} (run : exec .crypt s = .next t) {a : Nat}
    (outside : a < s.operands.dst.toNat ∨ s.operands.dst.toNat + s.operands.lenA.toNat ≤ a) :
    t.dmem.lookup a = s.dmem.lookup a := by
  obtain ⟨_, same, _⟩ := cryptBody_spec s
  exact exec_leaves (·.dmem.lookup a) run (same a outside)

/-- INIT from `k`, then CRYPT with `c`: the output is the input XOR the keystream that the key and DROP give, and a
byte outside it is as before. -/
theorem init_crypt_holds {s u t : State} {k c : Operands} {key bs : List Byte}
    (keyLength : k.lenA.toNat = key.length) (keyHeld : s.dmem.holds k.srcA.toNat key)
    (checkInit : check .init (s.setOperands k) = .none) (runInit : exec .init (s.setOperands k) = .next u)
    (length : c.lenA.toNat = bs.length) (input : s.dmem.holds c.srcA.toNat bs)
    (apart : c.dst = c.srcA ∨ disjoint c.srcA.toNat c.dst.toNat bs.length)
    (checkCrypt : check .crypt (u.setOperands c) = .none) (runCrypt : exec .crypt (u.setOperands c) = .next t) :
    t.dmem.holds c.dst.toNat ((doDrop (newEngine key k.drop)).xorKeystream bs) ∧
      ∀ a, a < c.dst.toNat ∨ c.dst.toNat + bs.length ≤ a → t.dmem.lookup a = s.dmem.lookup a := by
  obtain ⟨engine, dmem⟩ := exec_init_spec checkInit keyLength keyHeld runInit
  refine ⟨?_, fun a outside => ?_⟩
  · have inputKept : (u.setOperands c).dmem.holds c.srcA.toNat bs := by rw [State.setOperands_dmem, dmem]; exact input
    have output := exec_crypt_holds checkCrypt runCrypt length inputKept apart
    rwa [State.setOperands_engine, engine] at output
  · rw [← length] at outside
    exact (exec_crypt_outside runCrypt outside).trans (by rw [State.setOperands_dmem, dmem]; rfl)

/-! ## KEYED and DROPCFG under GEN and CRYPT -/

/-- GEN and CRYPT leave KEYED and DROPCFG: their engine is the old one after the drop and some keystream steps
(41_cipher.md R102, R104). -/
theorem exec_leaves_keyed_dropcfg {i : Instr} {s t : State} (run : exec i s = .next t)
    (keystream : i = .gen ∨ i = .crypt) :
    t.engine.keyed = s.engine.keyed ∧ t.engine.dropcfg = s.engine.dropcfg := by
  have advances : ∃ n, (bodyOf i s).engine = (doDrop s.engine).after n := by
    rcases keystream with rfl | rfl
    · exact bodyOf_engine .gen s
    · exact bodyOf_engine .crypt s
  obtain ⟨n, engine⟩ := advances
  obtain ⟨keyed, dropcfg, _⟩ := after_doDrop_fields s.engine n
  rw [← engine] at keyed dropcfg
  exact ⟨exec_leaves (·.engine.keyed) run keyed, exec_leaves (·.engine.dropcfg) run dropcfg⟩

end Sys2Proof.Machine

open Sys2Proof Sys2Proof.Machine

/-- Settles O16: the checks pass, and the body on a written key only makes the new engine. -/
theorem initBuildsTheInstance : Obligations.InitBuildsTheInstance := by
  intro s key least most length fits held
  exact exec_init_written (check_init_pass (by omega) (by omega) fits) length held

/-- Settles O17: the key that INIT schedules is a multi-byte read of its region. -/
theorem initCompletesOnEveryKeyRegion : Obligations.InitCompletesOnEveryKeyRegion := by
  intro s least most fits
  obtain ⟨key, d, _, rfl, body⟩ := initBody_spec s
  refine ⟨_, _, exec_pass (check_init_pass least most fits), memReadBytes_length _ s.operands.srcA.toNat s,
    fun k hk b written => ?_, ?_, rfl, rfl, rfl, rfl⟩
  · rw [memReadBytes_length] at hk
    exact memReadBytes_get hk written
  · simp only [bodyOf, body]
    rfl

/-- Settles O18: INIT leaves what no command changes, RESULT, and all of DMEM. -/
theorem initFrame : Obligations.InitFrame := by
  intro s t run
  obtain ⟨operands, irqEn, cmdLost, params, inbox, responses⟩ := exec_leaves_control run
  have dmem : t.dmem = s.dmem := exec_leaves (·.dmem) run (initBody_dmem s)
  exact ⟨exec_leaves_result run (by decide), operands, irqEn, cmdLost, params, inbox, responses, fun a => by rw [dmem]⟩

/-- Settles O20: every round of key scheduling reads the same key byte. -/
theorem repeatedKeySchedulesTheSame : Obligations.RepeatedKeySchedulesTheSame := by
  intro key m nonempty times
  unfold ksa
  rw [ksaRound_repeated nonempty times]

/-- Settles O21: the entries after the swap of R94, and the swap with itself of R95. -/
theorem prgaStepFollowsTheRule : Obligations.PrgaStepFollowsTheRule := by
  rintro e i j rfl rfl
  set i := e.i + 1
  set j := e.j + sboxGet e.sbox i
  have swapped : (prgaStep e).2.sbox = sboxSwap e.sbox i j := rfl
  have output : (prgaStep e).1 = sboxGet (sboxSwap e.sbox i j) (sboxGet e.sbox j + sboxGet e.sbox i) := by
    rw [← sboxGet_swap_left e.sbox i j, ← sboxGet_swap_right e.sbox i j]
    exact prgaStep_output e
  refine ⟨rfl, rfl, sboxGet_swap e.sbox i j, output, fun same => ?_, rfl, rfl, rfl, rfl⟩
  have double : (2 : Byte) * sboxGet e.sbox i = sboxGet e.sbox i + sboxGet e.sbox i := BitVec.two_mul
  rw [output, swapped, ← same, sboxSwap_self, double]
  exact ⟨rfl, rfl⟩

/-- Settles O22: the pending drop sets DROP_DONE, after which there is nothing left to drop. -/
theorem dropRunsOnce : Obligations.DropRunsOnce := fun e =>
  ⟨doDrop_done, doDrop_pending, doDrop_done (doDrop_dropDone e)⟩

/-- Settles O23: both INITs make the engine of the key and DROP, and a GEN's output is a function of the engine. -/
theorem equalKeysGiveEqualKeystreams : Obligations.EqualKeysGiveEqualKeystreams := by
  intro s₁ s₂ t₁ t₂ u₁ u₂ o₁ o₂ key len₁ len₂ held₁ held₂ init₁ init₂ drop run₁ run₂ count gen₁ gen₂ out₁ out₂
  obtain ⟨new₁, _⟩ := exec_init_spec init₁ len₁ held₁ run₁
  obtain ⟨new₂, _⟩ := exec_init_spec init₂ len₂ held₂ run₂
  have same : t₁.engine = t₂.engine := by rw [new₁, new₂, drop]
  obtain ⟨engine₁, _, bytes₁, _⟩ := exec_gen_outcome gen₁ out₁
  obtain ⟨engine₂, _, bytes₂, _⟩ := exec_gen_outcome gen₂ out₂
  simp only [State.setOperands_operands, State.setOperands_engine, same, count] at engine₁ bytes₁ engine₂ bytes₂
  exact ⟨same, engine₁.trans engine₂.symm, fun k hk =>
    (bytes₁ k (count ▸ hk)).trans (bytes₂ k (count ▸ hk)).symm⟩

/-- Settles O24: the checks pass, and GEN's outcome is that of its loop. -/
theorem genWritesTheKeystream : Obligations.GenWritesTheKeystream := by
  intro s keyed fits
  have pass := check_gen_pass keyed fits
  obtain ⟨engine, _, bytes, _⟩ := exec_gen_outcome pass (exec_pass pass)
  exact ⟨_, exec_pass pass, engine, bytes, rfl, rfl, rfl, rfl⟩

/-- Settles O25: GEN leaves what no command changes and what its loop leaves. -/
theorem genFrame : Obligations.GenFrame := by
  intro s t run
  obtain ⟨operands, irqEn, cmdLost, params, inbox, responses⟩ := exec_leaves_control run
  obtain ⟨keyed, dropcfg⟩ := exec_leaves_keyed_dropcfg run (.inl rfl)
  obtain ⟨_, draws, _, outside⟩ := genBody_outcome s
  exact ⟨exec_leaves_result run (by decide), keyed, dropcfg, operands, irqEn, cmdLost, params, inbox, responses,
    exec_leaves (·.draws) run draws, fun a ha => exec_leaves (·.dmem.lookup a) run (outside a ha)⟩

/-- Settles O26: the second GEN has no drop pending and goes on in the keystream where the first one stopped, so that
each byte of the one output comes from the first GEN, from the second, or from neither. -/
theorem splitGenEqualsOneGen : Obligations.SplitGenEqualsOneGen := by
  intro s t₁ t₂ t o₁ o₂ o keyed sum dst next fits run₁ run₂ run
  obtain ⟨_, _, _, params, _⟩ := exec_leaves_control run₁
  obtain ⟨keyed₁, _⟩ := exec_leaves_keyed_dropcfg run₁ (.inl rfl)
  have pass := check_gen_pass (s := s.setOperands o) keyed fits
  have pass₁ := check_gen_pass (s := s.setOperands o₁) keyed (by
    simp only [State.fits, State.setOperands_params, State.setOperands_operands, dst] at fits ⊢
    omega)
  have pass₂ := check_gen_pass (s := t₁.setOperands o₂) (keyed₁.trans keyed) (by
    simp only [State.fits, State.setOperands_params, State.setOperands_operands, params, dst] at fits ⊢
    omega)
  obtain ⟨engine, _, bytes, outside⟩ := exec_gen_outcome pass run
  obtain ⟨engine₁, _, bytes₁, outside₁⟩ := exec_gen_outcome pass₁ run₁
  obtain ⟨engine₂, _, bytes₂, outside₂⟩ := exec_gen_outcome pass₂ run₂
  simp only [State.setOperands_operands, State.setOperands_engine, State.setOperands_dmem, dst, sum, next]
    at engine bytes outside engine₁ bytes₁ outside₁ engine₂ bytes₂ outside₂
  have dropped : doDrop t₁.engine = (doDrop s.engine).after o₁.lenA.toNat := by
    rw [engine₁, doDrop_done (by simp)]
  rw [dropped] at engine₂ bytes₂
  refine ⟨by rw [engine₂, engine, Engine.after_add], fun a => ?_⟩
  by_cases inside : o₁.dst.toNat ≤ a ∧ a < o₁.dst.toNat + (o₁.lenA.toNat + o₂.lenA.toNat)
  · obtain ⟨aboveDst, _⟩ := inside
    obtain ⟨k, rfl⟩ := Nat.exists_eq_add_of_le aboveDst
    rw [bytes k (by omega)]
    rcases Nat.lt_or_ge k o₁.lenA.toNat with first | second
    · rw [outside₂ _ (by omega), bytes₁ k first]
    · obtain ⟨j, rfl⟩ := Nat.exists_eq_add_of_le second
      rw [← Nat.add_assoc, bytes₂ j (by omega), Engine.keystream_add]
  · rw [outside₂ a (by omega), outside₁ a (by omega), outside a (by omega)]

/-- Settles O27: the checks pass, and CRYPT's outcome is that of its loop. -/
theorem cryptXorsTheKeystream : Obligations.CryptXorsTheKeystream := by
  intro s keyed input output
  obtain ⟨engine, _, written, fresh, again⟩ := cryptBody_spec s
  exact ⟨_, exec_pass (check_crypt_pass keyed input output), engine, written, fresh, again, rfl, rfl, rfl, rfl⟩

/-- Settles O28: CRYPT leaves what no command changes and what its loop leaves. -/
theorem cryptFrame : Obligations.CryptFrame := by
  intro s t run
  obtain ⟨operands, irqEn, cmdLost, params, inbox, responses⟩ := exec_leaves_control run
  obtain ⟨keyed, dropcfg⟩ := exec_leaves_keyed_dropcfg run (.inr rfl)
  exact ⟨exec_leaves_result run (by decide), keyed, dropcfg, operands, irqEn, cmdLost, params, inbox, responses,
    fun _ => exec_crypt_outside run⟩

/-- Settles O29: the first CRYPT leaves the key, so the second INIT makes the same engine, whose keystream undoes
itself. -/
theorem decryptUndoesEncrypt : Obligations.DecryptUndoesEncrypt := by
  intro s s₁ s₂ s₃ s₄ k₁ c₁ k₂ c₂ key plain keyLength sameKey keyHeld plainHeld length sameLength source apart₁ apart₂
    keyApart init₁ run₁ crypt₁ run₂ init₂ run₃ crypt₂ run₄
  subst sameKey
  obtain ⟨cipher, outside⟩ := init_crypt_holds keyLength keyHeld init₁ run₁ length plainHeld apart₁ crypt₁ run₂
  have keyKept : s₂.dmem.holds k₂.srcA.toNat key :=
    Memory.holds_of_lookup_eq keyHeld fun k hk => outside _ (by omega)
  obtain ⟨decrypted, _⟩ := init_crypt_holds keyLength keyKept init₂ run₃ (by rw [sameLength, length]; simp)
    (source ▸ cipher) (by simpa using apart₂) crypt₂ run₄
  rwa [Engine.xorKeystream_xorKeystream] at decrypted
end

section
/-! PROOFS. FLIP and HAMM (42_bitops.md R109 to R115). FLIP is a copying loop whose bytes pass through
`flipByteValue`, which inverts one bit and so undoes itself. HAMM writes RESULT alone, and a distance that each byte
raises by at most 8. Neither looks at the cipher state: both commute with replacing it. -/

namespace Sys2Proof.Machine

/-! ## FLIP -/

/-- FLIP's checks once both regions are in DMEM: the bit index alone decides (42_bitops.md R109). -/
theorem check_flip {s : State} (input : s.fits s.operands.srcA s.operands.lenA)
    (output : s.fits s.operands.dst s.operands.lenA) :
    check .flip s = if s.operands.bitidx.toNat < 8 * s.operands.lenA.toNat then .none else .bitIndexRange := by
  rw [checksComeInOrder, ← ite_not (s.operands.bitidx.toNat < _)]
  simp [input, output]

/-- The mask of a bit index has the one bit `b mod 8` (42_bitops.md R109). -/
theorem bitMask_getLsbD (b n : Nat) : (bitMask b).getLsbD n = decide (n = b % 8) := by
  have mask : bitMask b = BitVec.twoPow 8 (b % 8) := rfl
  have shift : b % 8 < 8 := Nat.mod_lt b (by decide)
  rw [mask, BitVec.getLsbD_twoPow, decide_eq_true shift, Bool.true_and, decide_eq_decide]
  exact eq_comm

/-- FLIP inverts bit `b mod 8` of byte `b div 8`, and no other bit (42_bitops.md R109). -/
theorem flipByteValue_getLsbD (b k n : Nat) (v : Byte) :
    (flipByteValue b k v).getLsbD n = if k = b / 8 ∧ n = b % 8 then !v.getLsbD n else v.getLsbD n := by
  unfold flipByteValue
  by_cases byte : k = b / 8
  · rw [if_pos byte, BitVec.getLsbD_xor, bitMask_getLsbD]
    by_cases bit : n = b % 8
    · simp [byte, bit]
    · simp [bit]
  · simp [byte]

theorem flipByteValue_flipByteValue (b k : Nat) (v : Byte) : flipByteValue b k (flipByteValue b k v) = v := by
  unfold flipByteValue
  split
  · rw [BitVec.xor_assoc, BitVec.xor_self, BitVec.xor_zero]
  · rfl

/-- A byte sequence with bit b inverted (42_bitops.md R109). -/
def flipBytes (b : Nat) (bs : List Byte) : List Byte := bs.mapIdx (flipByteValue b)

@[simp] theorem flipBytes_length (b : Nat) (bs : List Byte) : (flipBytes b bs).length = bs.length :=
  List.length_mapIdx

theorem flipBytes_flipBytes (b : Nat) (bs : List Byte) : flipBytes b (flipBytes b bs) = bs := by
  refine List.ext_getElem (by simp) fun k _ _ => ?_
  simp [flipBytes, flipByteValue_flipByteValue]

/-- In regions that are equal or disjoint no input byte lies where an earlier iteration has written
(00_scope.md R10). -/
theorem input_unwritten_of_apart {src dst : Word} {k n : Nat} (apart : dst = src ∨ disjoint src.toNat dst.toNat n)
    (hk : k < n) : src.toNat + k < dst.toNat ∨ dst.toNat ≤ src.toNat := by
  rcases apart with rfl | below | above
  · exact .inr (Nat.le_refl _)
  · exact .inl (by omega)
  · exact .inr (by omega)

/-- FLIP of written bytes, in place or to a disjoint region, writes them with the one bit inverted
(42_bitops.md R109). -/
theorem exec_flip_holds {s t : State} {bs : List Byte} (pass : check .flip s = .none)
    (run : exec .flip s = .next t) (length : s.operands.lenA.toNat = bs.length)
    (input : s.dmem.holds s.operands.srcA.toNat bs)
    (apart : s.operands.dst = s.operands.srcA ∨ disjoint s.operands.srcA.toNat s.operands.dst.toNat bs.length) :
    t.dmem.holds s.operands.dst.toNat (flipBytes s.operands.bitidx.toNat bs) := by
  rw [exec_pass pass] at run
  cases run
  obtain ⟨_, _, fresh, _⟩ := flipLoop_spec s.operands.srcA.toNat s.operands.dst.toNat
    s.operands.bitidx.toNat s.operands.lenA.toNat s
  intro k hk
  rw [flipBytes_length] at hk
  have byte : s.dmem.lookup (s.operands.srcA.toNat + k) = some bs[k] := by
    rw [input k hk, List.getElem?_eq_getElem hk]
  have output : (flipBytes s.operands.bitidx.toNat bs)[k]? =
      some (flipByteValue s.operands.bitidx.toNat k bs[k]) := by
    simp [flipBytes, hk]
  exact (fresh k bs[k] (by omega) (input_unwritten_of_apart apart hk) byte).trans output.symm

/-- A bit index that reads as negative in two's complement is past the end of every region of DMEM
(10_state.md R29). -/
theorem negative_bitidx_out_of_range {s : State} {base len bitidx : Word} (legal : s.params.wf = true)
    (fits : s.fits base len) (negative : bitidx.toInt < 0) : 8 * len.toNat ≤ bitidx.toNat := by
  have half : 2 ^ 31 ≤ bitidx.toNat := by
    rw [BitVec.toInt_eq_toNat_cond] at negative
    split at negative <;> omega
  simp only [Params.wf, Params.dmemInRange, Bool.and_eq_true, decide_eq_true_eq] at legal
  obtain ⟨⟨_, _, most⟩, _⟩ := legal
  simp only [State.fits] at fits
  omega

/-! ## HAMM -/

/-- HAMM's checks pass with both buffers in DMEM (42_bitops.md R112). -/
theorem check_hamm_pass {s : State} (first : s.fits s.operands.srcA s.operands.lenA)
    (second : s.fits s.operands.srcB s.operands.lenB) : check .hamm s = .none := by
  rw [checksComeInOrder]
  simp [first, second]

/-- HAMM's body makes draws and writes RESULT, with at most 8 for each byte that is compared
(42_bitops.md R112, R113(d)). -/
theorem hammBody_spec (s : State) :
    ∃ d c, hammBody s = (s.setDraws c).setResult (BitVec.ofNat 32 d) ∧
      d ≤ 8 * min s.operands.lenA.toNat s.operands.lenB.toNat := by
  obtain ⟨c, _, state⟩ := hammLoop_state s.operands.srcA.toNat s.operands.srcB.toNat
    (min s.operands.lenA.toNat s.operands.lenB.toNat) 0 s
  refine ⟨_, c, ?_, hammLoop_le s.operands.srcA.toNat s.operands.srcB.toNat _ s⟩
  simp only [hammBody, state]

theorem hammBody_dmem (s : State) : (hammBody s).dmem = s.dmem := by
  obtain ⟨_, _, body, _⟩ := hammBody_spec s
  rw [body]
  rfl

/-- On written buffers HAMM's body leaves their distance in RESULT, and nothing else (42_bitops.md R112). -/
theorem hammBody_written {s : State} {a b : List Byte} (lengthA : s.operands.lenA.toNat = a.length)
    (lengthB : s.operands.lenB.toNat = b.length) (heldA : s.dmem.holds s.operands.srcA.toNat a)
    (heldB : s.dmem.holds s.operands.srcB.toNat b) :
    hammBody s = s.setResult (BitVec.ofNat 32 (hammingDistance a b)) := by
  simp only [hammBody, lengthA, lengthB, hammLoop_written heldA heldB (Nat.le_refl _), hammingDistance]

/-- The loop of HAMM on a written buffer against itself finds no difference, as `v XOR v = 0`
(42_bitops.md R114). -/
theorem hammLoop_self {s : State} {a n : Nat} (written : ∀ k, k < n → s.dmem.lookup (a + k) ≠ none) :
    loop (hammByte a a) n (0, s) = (0, s) := by
  refine loop_induct (fun _ x => x = (0, s)) rfl fun k x hk hx => ?_
  obtain ⟨v, hv⟩ := Option.ne_none_iff_exists'.mp (written k hk)
  simp [hx, hammByte, memRead_written hv]

theorem hammBody_self {s : State} (sameBase : s.operands.srcB = s.operands.srcA)
    (written : inputsWritten .hamm s) : (hammBody s).result = 0 := by
  have bytesWritten := written (s.operands.srcA.toNat, min s.operands.lenA.toNat s.operands.lenB.toNat)
    (by simp [inputRegions])
  simp only [hammBody, sameBase, hammLoop_self bytesWritten]
  rfl

/-! ## Both with another engine -/

section
variable (e : Engine)

theorem memRead_setEngine (a : Nat) (s : State) :
    memRead a (s.setEngine e) = ((memRead a s).1, (memRead a s).2.setEngine e) := by
  rw [memRead_eq, memRead_eq a s]
  rfl

theorem flipByte_setEngine (src dst b k : Nat) (s : State) :
    flipByte src dst b k (s.setEngine e) = (flipByte src dst b k s).setEngine e := by
  simp only [flipByte, memRead_setEngine]
  rfl

theorem flipBody_setEngine (s : State) : flipBody (s.setEngine e) = (flipBody s).setEngine e :=
  loop_commutes (g := (State.setEngine · e)) (flipByte_setEngine e _ _ _) _ s

theorem hammByte_setEngine (srcA srcB k : Nat) (x : Nat × State) :
    hammByte srcA srcB k (x.map id (State.setEngine · e)) =
      (hammByte srcA srcB k x).map id (State.setEngine · e) := by
  simp only [hammByte, Prod.map, id, memRead_setEngine]

theorem hammBody_setEngine (s : State) : hammBody (s.setEngine e) = (hammBody s).setEngine e := by
  have carried := loop_commutes (g := Prod.map id (State.setEngine · e))
    (hammByte_setEngine e s.operands.srcA.toNat s.operands.srcB.toNat)
    (min s.operands.lenA.toNat s.operands.lenB.toNat) (0, s)
  exact congrArg (fun d : Nat × State => d.2.setResult (BitVec.ofNat 32 d.1)) carried

variable {e} {i : Instr}

/-- A check that asks for no key does not look at the engine (40_command_cycle.md R85). -/
theorem check_setEngine (keyless : needsKey i = false) (s : State) : check i (s.setEngine e) = check i s := by
  simp [check, keyless]

/-- A command that asks for no key, and whose body does not look at the engine, does the same with any other. -/
theorem exec_setEngine {s t : State} (keyless : needsKey i = false)
    (body : bodyOf i (s.setEngine e) = (bodyOf i s).setEngine e) (run : exec i s = .next t) :
    exec i (s.setEngine e) = .next (t.setEngine e) := by
  have same := check_setEngine (e := e) keyless s
  rw [exec_eq]
  rcases exec_cases run with ⟨pass, rfl⟩ | ⟨failed, rfl⟩
  · rw [runCommand_pass _ (same.trans pass), body]
    rfl
  · rw [runCommand_fail _ (same.symm ▸ failed), same]
    rfl

end

end Sys2Proof.Machine

open Sys2Proof Sys2Proof.Machine

/-- Settles O30: the checks pass, and each output byte is the flipped input byte, bit by bit. -/
theorem flipInvertsOneBit : Obligations.FlipInvertsOneBit := by
  intro s input output index
  have pass : check .flip s = .none := by rw [check_flip input output, if_pos index]
  obtain ⟨_, written, fresh, again⟩ := flipLoop_spec s.operands.srcA.toNat s.operands.dst.toNat
    s.operands.bitidx.toNat s.operands.lenA.toNat s
  refine ⟨_, exec_pass pass, written, fun k j b hk source => ?_, rfl, rfl, rfl, rfl⟩
  refine ⟨flipByteValue s.operands.bitidx.toNat k b, ?_, fun n _ => flipByteValue_getLsbD _ k n b⟩
  rcases source with ⟨unwritten, byte⟩ | ⟨earlier, overlap, byte⟩
  · exact fresh k b hk unwritten byte
  · exact again k j b hk earlier overlap byte

/-- Settles O31: FLIP leaves what no command changes, RESULT, the engine, and the bytes outside its output. -/
theorem flipFrame : Obligations.FlipFrame := by
  intro s t run
  obtain ⟨operands, irqEn, cmdLost, params, inbox, responses⟩ := exec_leaves_control run
  obtain ⟨outside, _⟩ := flipLoop_spec s.operands.srcA.toNat s.operands.dst.toNat
    s.operands.bitidx.toNat s.operands.lenA.toNat s
  exact ⟨exec_leaves_result run (by decide), exec_leaves (·.engine) run (bodyOf_engine .flip s), operands, irqEn,
    cmdLost, params, inbox, responses, fun a ha => exec_leaves (·.dmem.lookup a) run (outside a ha)⟩

/-- Settles O32: in each of the three cases the index is at least 8·LEN_A, so the last check fails. -/
theorem flipRejectsBitsOutOfRange : Obligations.FlipRejectsBitsOutOfRange := by
  intro s legal input output outOfRange
  have past : 8 * s.operands.lenA.toNat ≤ s.operands.bitidx.toNat := by
    rcases outOfRange with empty | negative | past
    · simp [empty]
    · exact negative_bitidx_out_of_range legal input negative
    · exact past
  have code : check .flip s = .bitIndexRange := by rw [check_flip input output, if_neg (by omega)]
  have failed : check .flip s ≠ .none := by rw [code]; decide
  obtain ⟨statusOnly, _⟩ := failedCommandChangesOnlyStatus
  rw [statusOnly .flip s failed, code]

/-- Settles O33: the second FLIP inverts the same bit of what the first one wrote. -/
theorem flipTwiceRestores : Obligations.FlipTwiceRestores := by
  intro s t u o₁ o₂ x held length sameLength sameIndex source apart₁ apart₂ pass₁ run₁ pass₂ run₂
  have flipped := exec_flip_holds pass₁ run₁ length held apart₁
  have restored := exec_flip_holds pass₂ run₂ (by simp [sameLength, length]) (source ▸ flipped)
    (by simpa using apart₂)
  simp only [State.setOperands_operands, sameIndex, flipBytes_flipBytes] at restored
  exact restored

/-- Settles O34: the checks pass, and the body on written buffers only leaves their distance in RESULT. -/
theorem hammCountsDifferingBits : Obligations.HammCountsDifferingBits := by
  intro s a b lengthA lengthB first second heldA heldB
  rw [exec_pass (check_hamm_pass first second)]
  simp only [bodyOf, hammBody_written lengthA lengthB heldA heldB]
  rfl

/-- Settles O35: a byte adds at most 8 to the distance, and nothing when it is compared with itself. -/
theorem hammStaysInItsBounds : Obligations.HammStaysInItsBounds := by
  intro s _ first second
  refine ⟨_, exec_pass (check_hamm_pass first second), ?bound, fun sameBase _ => hammBody_self sameBase,
    rfl, rfl, rfl, rfl⟩
  obtain ⟨d, c, body, bound⟩ := hammBody_spec s
  simp only [bodyOf, body]
  exact (Nat.mod_le d _).trans bound

/-- Settles O36: HAMM leaves what no command changes, the engine, and all of DMEM. -/
theorem hammFrame : Obligations.HammFrame := by
  intro s t run
  obtain ⟨operands, irqEn, cmdLost, params, inbox, responses⟩ := exec_leaves_control run
  have dmem : t.dmem = s.dmem := exec_leaves (·.dmem) run (hammBody_dmem s)
  exact ⟨exec_leaves (·.engine) run (bodyOf_engine .hamm s), operands, irqEn, cmdLost, params, inbox, responses,
    fun a => by rw [dmem]⟩

/-- Settles O37: the frames give what stays, and both bodies commute with replacing the engine. -/
theorem bitOpsIgnoreTheCipher : Obligations.BitOpsIgnoreTheCipher := by
  refine fun s t e => ⟨fun run => ?flip, fun run => ?hamm⟩
  case flip =>
    obtain ⟨result, engine, _⟩ := flipFrame s t run
    exact ⟨engine, result, exec_setEngine rfl (flipBody_setEngine e s) run⟩
  case hamm =>
    exact ⟨exec_leaves (·.engine) run (bodyOf_engine .hamm s), exec_leaves (·.dmem) run (hammBody_dmem s),
      exec_setEngine rfl (hammBody_setEngine e s) run⟩
end

section
/-! PROOFS. Exceptions (60_exceptions.md R116, R119): the outcomes of a step, and the interrupt. The line `irq` is
IRQ_EN where DONE is 1 and low where DONE is 0; so each clause of R119 is what a completion or a register write leaves
in these two fields. -/

namespace Sys2Proof.Machine

/-! ## The outcomes of a step -/

/-- A step has a next state, but where `rst` falls inside the transaction that comes next: there the block faults
(60_exceptions.md R116, 70_reset_and_hazards.md R148, log entry 8). -/
theorem step_next_or_fault (s : State) :
    ((∀ x, s.inbox.head? ≠ some (.rstMidTxn x)) ∧ ∃ t, step s = .next t) ∨
    ((∃ x, s.inbox.head? = some (.rstMidTxn x)) ∧ step s = .fault .resetDuringTransaction) := by
  cases inbox : s.inbox with
  | nil =>
    obtain ⟨t, move⟩ := sequencerMove_next s
    exact .inl ⟨nofun, t, (step_nil inbox).trans move⟩
  | cons e rest =>
    by_cases midTxn : ∃ x, e = .rstMidTxn x
    · obtain ⟨x, rfl⟩ := midTxn
      exact .inr ⟨⟨x, rfl⟩, step_cons inbox⟩
    · have noFault : ∀ x, e ≠ .rstMidTxn x := fun x h => midTxn ⟨x, h⟩
      exact .inl ⟨fun x h => noFault x (Option.some.inj h), _, (step_cons inbox).trans (handleEvent_next noFault _)⟩

/-! ## The interrupt line (60_exceptions.md R119) -/

theorem irq_of_done {s : State} (done : s.done = true) : s.irq = s.irqEn := by simp [State.irq, done]

theorem irq_of_not_done {s : State} (notDone : s.done = false) : s.irq = false := by simp [State.irq, notDone]

/-- A completion of a command, with or without an error, sets DONE and leaves IRQ_EN. -/
theorem exec_irq {i : Instr} {s t : State} (run : exec i s = .next t) : t.irq = s.irqEn := by
  obtain ⟨_, irqEn, _⟩ := exec_leaves_control run
  have done : t.done = true := by rcases exec_cases run with ⟨_, rfl⟩ | ⟨_, rfl⟩ <;> exact State.complete_done ..
  rw [irq_of_done done, irqEn]

/-- The sequencer's move while BUSY is a completion, of a command or of an illegal word. -/
theorem sequencerMove_irq {s t : State} {w : Word} (busy : s.seq = .busy w) (move : sequencerMove s = .next t) :
    t.irq = s.irqEn := by
  cases decoded : decode w with
  | ok i => exact exec_irq ((sequencerMove_decoded busy decoded).symm.trans move)
  | error e =>
    simp only [sequencerMove, busy, decoded, Host.Outcome.next.injEq] at move
    rw [← move, irq_of_done (State.complete_done ..), State.complete_irqEn]

end Sys2Proof.Machine

open Sys2Proof Sys2Proof.Machine

/-- Settles O9: of the two outcomes of a step the second is the fault, and neither is a refusal. -/
theorem stepStopsOnlyOnResetMidTransaction : Obligations.StepStopsOnlyOnResetMidTransaction := by
  intro s
  rcases step_next_or_fault s with ⟨noMidTxn, t, next⟩ | ⟨⟨x, midTxn⟩, fault⟩
  · exact ⟨⟨fun _ => noMidTxn, fun _ => ⟨t, next⟩⟩, by simp [next]⟩
  · exact ⟨⟨by simp [fault], fun noMidTxn => absurd midTxn (noMidTxn x)⟩, by simp [fault]⟩

/-- Settles O55: a completion leaves DONE = 1; an issue and a STATUS write leave DONE = 0 (O11, O42), and a CTRL write
leaves its bit 0 in IRQ_EN (O41). -/
theorem irqFollowsDone : Obligations.IrqFollowsDone := by
  intro s v
  obtain ⟨issue, _⟩ := cmdWriteIssuesOrIsLost s v
  obtain ⟨_, writeStatus, _⟩ := statusReadsAndClears s v
  obtain ⟨writeCtrl, _⟩ := ctrlStoresOneBit s v
  have ctrl : (hostWrite .b4 0x004 v s).irq = (v.getLsbD 0 && s.done) := by rw [writeCtrl]; rfl
  refine ⟨rfl, fun _ _ => exec_irq, fun _ _ => sequencerMove_irq, fun idle => ?issue, fun clears => ?status,
    fun disables => ?disable, fun enables done => ?enable⟩
  case issue => exact irq_of_not_done (by rw [issue idle]; rfl)
  case status => exact irq_of_not_done (by simp [writeStatus, clears])
  case disable => rw [ctrl, disables, Bool.false_and]
  case enable => rw [ctrl, enables, done, Bool.and_self]
end

section
/-! PROOFS. Reset edges (70_reset_and_hazards.md R130 to R132). An edge is the next event of the run, and what it leaves
is `State.applyReset`; a transaction presented on it adds at most a free answer and the draws for it. -/

namespace Sys2Proof.Machine

theorem step_rst {s : State} {o : Option Txn} {rest : List Event} (next : s.inbox = .rst o :: rest) :
    step s = .next (resetEdge o (s.setInbox rest)) := step_cons next

theorem accessInReset_undecoded {x : Txn} {s : State} (undecoded : windowOffset s.params x.addr = none) :
    accessInReset x s = s := by simp [accessInReset, undecoded]

/-- A decoded transaction during reset only draws and answers; the answer is one of its own kind, or an error
(70_reset_and_hazards.md R132, log entry 9). -/
theorem accessInReset_decoded {x : Txn} {s : State} (decoded : windowOffset s.params x.addr ≠ none) :
    ∃ d r, accessInReset x s = (s.setDraws d).respond r ∧
      (r = .busError ∨ (x.write = true ∧ r = .writeAck) ∨ (x.write = false ∧ ∃ v, r = .readData v)) := by
  obtain ⟨off, inWindow⟩ := Option.ne_none_iff_exists'.mp decoded
  refine ⟨s.draws + 2, _, by simp only [accessInReset, inWindow]; rfl, ?_⟩
  split_ifs with err write
  · exact .inl rfl
  · exact .inr (.inl ⟨write, rfl⟩)
  · exact .inr (.inr ⟨Bool.eq_false_iff.mpr write, _, rfl⟩)

end Sys2Proof.Machine

open Sys2Proof Sys2Proof.Machine

/-- Settles O5: the edge takes the next event, and what it leaves reads nothing of the command that was running. -/
theorem resetEdgeAbandonsEverything : Obligations.ResetEdgeAbandonsEverything :=
  fun _ _ next => step_rst next

/-- Settles O6: the transaction meets the state that the reset leaves; undecoded it adds nothing, decoded an answer. -/
theorem transactionDuringResetIsNotPerformed : Obligations.TransactionDuringResetIsNotPerformed := by
  intro s x rest next
  by_cases undecoded : windowOffset s.params x.addr = none
  · have silent := accessInReset_undecoded (s := (s.setInbox rest).applyReset) undecoded
    exact ⟨s.draws, s.responses, (step_rst next).trans (congrArg _ silent), fun _ => rfl,
      fun decoded => absurd undecoded decoded⟩
  · obtain ⟨d, r, answered, kind⟩ := accessInReset_decoded (s := (s.setInbox rest).applyReset) undecoded
    exact ⟨d, r :: s.responses, (step_rst next).trans (congrArg _ answered), fun isNone => absurd isNone undecoded,
      fun _ => ⟨r, rfl, kind⟩⟩
end
